-- ==== Sys2Proof/Word.lean ====
section
/-!
DEFINITION. The data of the core: bytes, the 8-byte block, the 64-byte key, the round index, and the small closed sets of names that
both the operations and the state use (spec/00_scope.md R5, R11).  Nothing in the core is wider than a byte (20_memory.md R54): a
block is eight bytes in index order, never one 64-bit word.
-/

namespace Sys2Proof

/-- One byte, 0 to 255 (00_scope.md R11). -/
abbrev Byte := BitVec 8

/-- A block of `BLOCK_SIZE` = 8 bytes, index 0 the first in stream order (30_encoding.md R81). -/
abbrev Block := Vector Byte 8

/-- The key store, 64 bytes, index 0 the first byte of the key (30_encoding.md R82). -/
abbrev Key := Vector Byte 64

/-- The round index `ROUND`, 4 bits, 0..15 (10_state.md R20). -/
abbrev RoundIndex := BitVec 4

/-- The direction (10_state.md R27: "direction enum: Encrypt | Decrypt").  Its one-bit code is `Dir.code` in Decode.lean. -/
inductive Dir where
  | encrypt
  | decrypt
  deriving DecidableEq, Repr

/-- The three error kinds (60_exceptions.md R180). -/
inductive ErrorKind where
  /-- `KeyLengthError`, R181 -/
  | keyLength
  /-- `EntropySourceError`, R182 -/
  | entropySource
  /-- `IOError`, R183 -/
  | io
  deriving DecidableEq, Repr

/-- What one transaction on the input port or the entropy port delivers: `n` bytes with `n ≤ 8`.  The bound is part of the type because
an answer with more than 8 bytes "cannot occur" and "a model gives the answer type no such value" (20_memory.md R51, R53). -/
structure Chunk where
  bytes : List Byte
  le_blockSize : bytes.length ≤ 8
  deriving DecidableEq, Repr

/-- The `n` of `Data(n, b)` or `Rand(n, b)`. -/
def Chunk.len (c : Chunk) : Nat := c.bytes.length

end Sys2Proof
end

