-- ==== Sys2Proof/Config.lean ====
section
/-!
DEFINITION. What this hardware fixes (spec/00_scope.md R5, R6) and the one value the spec leaves open for every run, as a free value.
The open parameters `PORT_PROTOCOL`, `PORT_LANE_ORDER` and `REGMAP` have no field: no rule depends on them (93_implementation_defined.md
section 2).
-/

namespace Sys2Proof.Config

/-- `BLOCK_SIZE`, bytes in a block (R5). -/
abbrev blockSize : Nat := 8

/-- `k`, bytes in a half block (R5). -/
abbrev half : Nat := 4

/-- `ROUNDS`, rounds of the block transform (R5). -/
abbrev rounds : Nat := 16

/-- `KEY_BYTES`, bytes in a key, `(BLOCK_SIZE/2) * ROUNDS` (R5). -/
abbrev keyBytes : Nat := 64

/-- `COUNT_WIDTH` (R6, decision D7): the width of `COUNT`, which wraps modulo 2^64.  DESIGN CHOICE, notes/assumptions/19.md. -/
abbrev countWidth : Nat := 64

/-- FREE VALUE, DESIGN CHOICE (notes/assumptions/2.md).  The value of `COUNT` that `SR` returns where the spec says it is unspecified: while the core is
busy, and in `FAIL` after another error than `KeyLengthError` (43_stream_framer.md R171, 93_implementation_defined.md U1 "any value").
It has no body: nothing can be proved of it.  It is applied to the counter `State.freeCounter`, which every such read advances, so
two reads need not agree. -/
opaque unspecifiedCount : Nat → BitVec 64

end Sys2Proof.Config
end

