-- ==== Sys2Proof/Syntax.lean ====
section
/-!
DEFINITION. The operations of the core as syntax: one constructor per row of spec/opcode_table.json, 22 rows for 21 operations
(`SF.STEP` has two rows, one per value of `SEL[4]`).  An operation carries the operands its rule names; what it does is in Machine/.
-/

namespace Sys2Proof

/-- Where a `raise` comes from (60_exceptions.md R187): DESIGN CHOICE, notes/assumptions/17.md. -/
inductive FaultSource where
  /-- the `SEL` class `110nnn`: in the decrypt direction the first read returned these `n` bytes, `n` in 0..7 (R184); always `IOError` -/
  | shortFirstRead (b : List Byte)
  /-- `raise E` in the rule of another operation; it has no selector -/
  | raised (e : ErrorKind)
  deriving DecidableEq, Repr

/-- The operation set (00_scope.md R2). -/
inductive Instr where
  /-- `RF(x, kb)`, R110 -/
  | rf (x kb : Byte)
  /-- `FR.E` with round index `r`, R111 -/
  | frE (r : RoundIndex)
  /-- `FR.D` with round index `r`, R113 -/
  | frD (r : RoundIndex)
  /-- `BT.ENC`, R112 -/
  | btEnc
  /-- `BT.DEC`, R114 -/
  | btDec
  /-- `KS.LOAD key`, a byte sequence of any length, R130 -/
  | ksLoad (key : List Byte)
  /-- `KS.CHECK`, R131 -/
  | ksCheck
  /-- `KS.VIEW(r)`, R132 -/
  | ksView (r : RoundIndex)
  /-- `CE.IVGEN`, R140 -/
  | ceIvgen
  /-- `CE.ENC.FULL` with the chunk `Data(8, b)`, R141 -/
  | ceEncFull (b : Block)
  /-- `CE.ENC.TAIL` with the chunk `Data(n, b)`, `n` in 1..7, R142 -/
  | ceEncTail (b : List Byte)
  /-- `CE.IVLOAD` with the chunk `Data(8, b)`, R143 -/
  | ceIvload (b : Block)
  /-- `CE.DEC.FULL` with the chunk `Data(8, b)`, R144 -/
  | ceDecFull (b : Block)
  /-- `CE.DEC.TAIL` with the chunk `Data(n, b)`, `n` in 1..7, R145 -/
  | ceDecTail (b : List Byte)
  /-- `START d`, R160 -/
  | start (d : Dir)
  /-- `SF.READ`, R161 -/
  | sfRead
  /-- `SF.WRITE(n, v)`, `n` in 1..8 the length of `v`, R162 -/
  | sfWrite (v : List Byte)
  /-- `SF.STEP` when `SEL[4] = 1` (`PHASE = SEED`): the IV step, R163 -/
  | sfStepSeed
  /-- `SF.STEP` when `SEL[4] = 0` (`PHASE = STREAM`): one iteration of the loop, R164 -/
  | sfStepStream
  /-- `SF.END`, selected by `SEL = d00000` in either direction, R165 -/
  | sfEnd (d : Dir)
  /-- `SF.FAULT`, R187 -/
  | sfFault (src : FaultSource)
  /-- `SR`, R171 -/
  | sr
  deriving DecidableEq, Repr

end Sys2Proof
end

