-- ==== Sys2Proof/WellFormed.lean ====
section
/-!
DEFINITION. Which operation terms stand for an operation of the core: the operand bounds the rules give.  A tail has 1 to 7 bytes
(42_chaining_engine.md R142, R145), a write 1 to 8 (43_stream_framer.md R162: "The core never issues a write of 0 bytes", 20_memory.md
R52), the short first read of the decrypt direction 0 to 7 (60_exceptions.md R184).  The key of `KS.LOAD` has any length (R130).
-/

namespace Sys2Proof

/-- The length of a tail: `1 ≤ n ≤ 7`. -/
def tailLength (b : List Byte) : Bool := decide (1 ≤ b.length) && decide (b.length ≤ 7)

/-- The length of a write: `1 ≤ n ≤ 8`. -/
def writeLength (v : List Byte) : Bool := decide (1 ≤ v.length) && decide (v.length ≤ 8)

/-- The length of a first read that is too short: `n ≤ 7`. -/
def shortLength (b : List Byte) : Bool := decide (b.length ≤ 7)

/-- Well-formed operations. -/
def Instr.wf : Instr → Bool
  | .rf _ _ => true
  | .frE _ => true
  | .frD _ => true
  | .btEnc => true
  | .btDec => true
  | .ksLoad _ => true
  | .ksCheck => true
  | .ksView _ => true
  | .ceIvgen => true
  | .ceEncFull _ => true
  | .ceEncTail b => tailLength b
  | .ceIvload _ => true
  | .ceDecFull _ => true
  | .ceDecTail b => tailLength b
  | .start _ => true
  | .sfRead => true
  | .sfWrite v => writeLength v
  | .sfStepSeed => true
  | .sfStepStream => true
  | .sfEnd _ => true
  | .sfFault (.shortFirstRead b) => shortLength b
  | .sfFault (.raised _) => true
  | .sr => true

end Sys2Proof
end

