-- ==== Sys2Proof/Decode.lean ====
section
/-!
DEFINITION. Formats, the operation map and its decoder and encoder (spec/30_encoding.md R80 to R95, spec/opcode_table.json).

"The core executes no instruction words": the spec gives three selector spaces, format S (`SEL`, 6 bits, R85 and the table of R90(a)),
format RS (5 bits, R90(b)) and format C (1 bit, R84), two one-bit selectors of opcode_table.json (`DIR` for `BT.*`, `SEL[4]` for `SF.STEP`),
and seven operations with no selector at all.  The spaces overlap, so one byte of selector bits does not say which space it belongs to.
DESIGN CHOICE (notes/assumptions/4.md): a DESCRIPTOR is a list of bytes whose first byte holds a space tag above the spec's own selector
bits and whose other bytes are the operand bytes; the tag of format S is 00, so the first byte of a format S descriptor is `SEL` itself.

| first byte | space | operand bytes |
|---|---|---|
| `00 d s LLLL` | format S, `SEL` | the chunk just read, `LEN` bytes (none for `CE.IVGEN`, `SF.END`) |
| `010 d rrrr` | format RS | none |
| `0110000 d` | `DIR`, the `RS` sequence of `BT.ENC` / `BT.DEC` | none |
| `0110001 s` | `SEL[4]`, `SF.STEP` | none |
| `0110010 d` | format C, `START` | none |
| `10000000` | `RF` by name | `x`, `kb` |
| `10000001` | `KS.LOAD` by name | the key, every byte that follows |
| `10000010` | `KS.CHECK` by name | none |
| `10000011` | `SF.READ` by name | none |
| `10000100` | `SR` by name | none |
| `10010 nnn` | `SF.WRITE` by name, `n - 1` in the low bits | `v`, `n` bytes |
| `1010 rrrr` | `KS.VIEW(r)` by name | none |
| `101100 cc` | `SF.FAULT` of `raise E`, `code(E)` in the low bits | none |
-/

namespace Sys2Proof

/-- Why a list of bytes is no descriptor. -/
inductive Reject where
  /-- there is no first byte -/
  | empty
  /-- `SEL` with `LEN` in 9..15, which "cannot arise" (R91) -/
  | selReserved (sel : BitVec 6)
  /-- the operand bytes are too few or too many (`got` of them) for the first byte `b` -/
  | operandCount (b : Byte) (got : Nat)
  /-- no space has this first byte -/
  | noSuchSpace (b : Byte)
  deriving DecidableEq, Repr

/-! ### Formats -/

/-- Format C and the bit `DIR`: 0 encrypt, 1 decrypt (R84; 10_state.md R27). -/
def Dir.code : Dir → BitVec 1
  | .encrypt => 0
  | .decrypt => 1

/-- The direction a format C bit selects (R84). -/
def dirOfCode (d : BitVec 1) : Dir := if d = 0 then .encrypt else .decrypt

/-- `code(E)` (60_exceptions.md R180). -/
def ErrorKind.code : ErrorKind → BitVec 2
  | .keyLength => 1
  | .entropySource => 2
  | .io => 3

/-- `pad8(b)`: byte `j` of `b` for `j < n`, 0x00 above (R87).  Of a full chunk it is the chunk. -/
def pad8 (b : List Byte) : Block := Vector.ofFn fun j => b.getD j.val 0

/-- `SEL`: `SEL[5] = DIR`, `SEL[4] = SEED`, `SEL[3:0] = LEN` (R85). -/
def selWord (d : Dir) (seed : Bool) (len : Nat) : BitVec 6 := d.code ++ BitVec.ofBool seed ++ BitVec.ofNat 4 len

/-- `SEL[3:0]`. -/
def selLen (sel : BitVec 6) : Nat := (sel.extractLsb' 0 4).toNat

/-- `SEL[5]`. -/
def selDir (sel : BitVec 6) : Dir := dirOfCode (sel.extractLsb' 5 1)

/-- `RS`: `RS[4] = DIR`, `RS[3:0] = ROUND` (R90(b)). -/
def rsWord (d : Dir) (r : RoundIndex) : BitVec 5 := d.code ++ r

/-! ### The operation map of R90 -/

/-- The operations that `SEL` selects. -/
inductive SelClass where
  | ivgen | encFull | encTail | ivload | shortFirstRead | decFull | decTail | endOfStream
  deriving DecidableEq, Repr

/-- One row of R90(a): the pattern, the mask, whether the further condition `LEN != 0` stands, the operation. -/
structure SelRow where
  pattern : BitVec 6
  mask : BitVec 6
  lenNonzero : Bool
  op : SelClass
  deriving DecidableEq, Repr

/-- The table of R90(a), row by row. -/
def selTable : List SelRow :=
  [⟨0x10, 0x30, false, .ivgen⟩,
   ⟨0x08, 0x3F, false, .encFull⟩,
   ⟨0x00, 0x38, true, .encTail⟩,
   ⟨0x38, 0x3F, false, .ivload⟩,
   ⟨0x30, 0x38, false, .shortFirstRead⟩,
   ⟨0x28, 0x3F, false, .decFull⟩,
   ⟨0x20, 0x38, true, .decTail⟩,
   ⟨0x00, 0x1F, false, .endOfStream⟩]

/-- A row matches a value of `SEL`, its further condition included. -/
def SelRow.hits (row : SelRow) (sel : BitVec 6) : Bool :=
  (sel &&& row.mask == row.pattern) && (!row.lenNonzero || selLen sel != 0)

/-- The operation `SEL` selects: the one matching row's (R90: "matches exactly one row"). -/
def selectSel (sel : BitVec 6) : Option SelClass := (selTable.find? (·.hits sel)).map (·.op)

/-- The round a round selector selects: `0rrrr` is `FR.E`, `1rrrr` is `FR.D` (R90(b)). -/
def decodeRs (rs : BitVec 5) : Instr :=
  if rs.extractLsb' 4 1 = 0 then .frE (rs.extractLsb' 0 4) else .frD (rs.extractLsb' 0 4)

/-! ### Operand bytes -/

/-- A descriptor that takes no operand byte. -/
def takeNone (b : Byte) (ops : List Byte) (i : Instr) : Except Reject Instr :=
  if ops.length = 0 then .ok i else .error (.operandCount b ops.length)

/-- A descriptor that takes exactly `n` operand bytes. -/
def takeBytes (b : Byte) (n : Nat) (ops : List Byte) (k : List Byte → Instr) : Except Reject Instr :=
  if ops.length = n then .ok (k ops) else .error (.operandCount b ops.length)

/-- A descriptor whose operand is a full chunk of 8 bytes. -/
def takeBlock (b : Byte) (ops : List Byte) (k : Block → Instr) : Except Reject Instr :=
  takeBytes b 8 ops fun bs => k (pad8 bs)

/-! ### The decoder -/

/-- Format S: the operation of R90(a) with the chunk as operand. -/
def decodeSel (b : Byte) (sel : BitVec 6) (ops : List Byte) : Except Reject Instr :=
  match selectSel sel with
  | none => .error (.selReserved sel)
  | some .ivgen => takeNone b ops .ceIvgen
  | some .encFull => takeBlock b ops .ceEncFull
  | some .encTail => takeBytes b (selLen sel) ops .ceEncTail
  | some .ivload => takeBlock b ops .ceIvload
  | some .shortFirstRead => takeBytes b (selLen sel) ops fun bs => .sfFault (.shortFirstRead bs)
  | some .decFull => takeBlock b ops .ceDecFull
  | some .decTail => takeBytes b (selLen sel) ops .ceDecTail
  | some .endOfStream => takeNone b ops (.sfEnd (selDir sel))

/-- The operations that have no selector and are "invoked by name" (R90), and `KS.LOAD` and `SR`. -/
def decodeNamed (b : Byte) (ops : List Byte) : Except Reject Instr :=
  if b = 0x80 then
    match ops with
    | [x, kb] => .ok (.rf x kb)
    | _ => .error (.operandCount b ops.length)
  else if b = 0x81 then .ok (.ksLoad ops)
  else if b = 0x82 then takeNone b ops .ksCheck
  else if b = 0x83 then takeNone b ops .sfRead
  else if b = 0x84 then takeNone b ops .sr
  else if b.extractLsb' 3 5 = 0b10010 then takeBytes b ((b.extractLsb' 0 3).toNat + 1) ops .sfWrite
  else if b.extractLsb' 4 4 = 0b1010 then takeNone b ops (.ksView (b.extractLsb' 0 4))
  else if b = 0xB1 then takeNone b ops (.sfFault (.raised .keyLength))
  else if b = 0xB2 then takeNone b ops (.sfFault (.raised .entropySource))
  else if b = 0xB3 then takeNone b ops (.sfFault (.raised .io))
  else .error (.noSuchSpace b)

/-- The operation whose first byte is `b` and whose operand bytes are `ops`. -/
def decodeFirst (b : Byte) (ops : List Byte) : Except Reject Instr :=
  if b.extractLsb' 6 2 = 0 then decodeSel b (b.extractLsb' 0 6) ops
  else if b.extractLsb' 5 3 = 0b010 then takeNone b ops (decodeRs (b.extractLsb' 0 5))
  else if b = 0x60 then takeNone b ops .btEnc
  else if b = 0x61 then takeNone b ops .btDec
  else if b = 0x62 then takeNone b ops .sfStepStream
  else if b = 0x63 then takeNone b ops .sfStepSeed
  else if b = 0x64 then takeNone b ops (.start .encrypt)
  else if b = 0x65 then takeNone b ops (.start .decrypt)
  else decodeNamed b ops

/-- The decoder, total on every list of bytes: the whole list is one descriptor. -/
def decode : List Byte → Except Reject Instr
  | [] => .error .empty
  | b :: ops => decodeFirst b ops

/-! ### The encoder -/

/-- The first byte of a format S descriptor: `SEL` itself. -/
def selByte (d : Dir) (seed : Bool) (len : Nat) : Byte := 0#2 ++ selWord d seed len

/-- The descriptor of an operation, written from the same tables (R84, R85, R90; the tags of the table above). -/
def encode : Instr → List Byte
  | .rf x kb => [0x80, x, kb]
  | .frE r => [0b010#3 ++ rsWord .encrypt r]
  | .frD r => [0b010#3 ++ rsWord .decrypt r]
  | .btEnc => [0b0110000#7 ++ Dir.code .encrypt]
  | .btDec => [0b0110000#7 ++ Dir.code .decrypt]
  | .ksLoad key => 0x81 :: key
  | .ksCheck => [0x82]
  | .ksView r => [0b1010#4 ++ r]
  | .ceIvgen => [selByte .encrypt true 0]
  | .ceEncFull b => selByte .encrypt false 8 :: b.toList
  | .ceEncTail b => selByte .encrypt false b.length :: b
  | .ceIvload b => selByte .decrypt true 8 :: b.toList
  | .ceDecFull b => selByte .decrypt false 8 :: b.toList
  | .ceDecTail b => selByte .decrypt false b.length :: b
  | .start d => [0b0110010#7 ++ d.code]
  | .sfRead => [0x83]
  | .sfWrite v => (0b10010#5 ++ BitVec.ofNat 3 (v.length - 1)) :: v
  | .sfStepSeed => [0b0110001#7 ++ 1#1]
  | .sfStepStream => [0b0110001#7 ++ 0#1]
  | .sfEnd d => [selByte d false 0]
  | .sfFault (.shortFirstRead b) => selByte .decrypt true b.length :: b
  | .sfFault (.raised e) => [0b101100#6 ++ e.code]
  | .sr => [0x84]

/-! ### Words of spec/opcode_table.json -/

/-- How many operand bytes a descriptor with this first byte takes (for `KS.LOAD`, whose key has any length, none). -/
def operandBytes (b : Byte) : Nat :=
  if b.extractLsb' 6 2 = 0 then
    match selectSel (b.extractLsb' 0 6) with
    | some .ivgen => 0
    | some .endOfStream => 0
    | some _ => selLen (b.extractLsb' 0 6)
    | none => 0
  else if b = 0x80 then 2
  else if b.extractLsb' 3 5 = 0b10010 then (b.extractLsb' 0 3).toNat + 1
  else 0

/-- The `n` bytes of `w`, the least significant first. -/
def bytesOfNat : Nat → Nat → List Byte
  | 0, _ => []
  | n + 1, w => BitVec.ofNat 8 w :: bytesOfNat n (w / 256)

/-- Zero bytes after `bs` up to a length of `n`. -/
def padZeros (n : Nat) (bs : List Byte) : List Byte := bs ++ List.replicate (n - bs.length) 0

/-- The descriptor that a word of opcode_table.json stands for: its bytes, bit 0 the least significant bit of the first, then the operand
bytes that the table gives no bits, as zeros.  A word of no bits still has a first byte, all zeros. -/
def tableBytes (nbits w : Nat) : List Byte :=
  let bs := padZeros 1 (bytesOfNat ((nbits + 7) / 8) w)
  padZeros (1 + operandBytes (bs.headD 0)) bs

/-- The operation the decoder reads from a word of opcode_table.json.  The table's rows of formats RS, C and the one-bit selectors share
their bit patterns with rows of format S; an 8-bit word is read as format S, the one space whose bits fill the first byte from bit 0
with tag 00 (notes/assumptions/4.md). -/
def decodeTableWord (nbits w : Nat) : Option Instr :=
  match decode (tableBytes nbits w) with
  | .ok i => some i
  | .error _ => none

end Sys2Proof
end

