-- ==== Sys2Proof/Machine/State.lean ====
section
/-!
DEFINITION. The state of the core (spec/10_state.md), the environment that answers it and the history of its transactions, as plain data.

The first group of fields is the spec's own state, R20 and R29.  The second is the environment (00_scope.md R8, 10_state.md R36: "parameters of
a run or answers of the environment"), the transaction that is in progress, the value an operation returned, and the history; these are
the MODEL's own fields and INVENTORY.md marks them so.  The core has no addressable memory (20_memory.md R50), so there is no memory field.
-/

namespace Sys2Proof.Machine

/-- The sequencing state `PHASE` (10_state.md R28), by name: DEDUCED, notes/assumptions/16.md.  Codes 5, 6, 7 do not occur, so the type has no such value. -/
inductive Phase where
  | idle | seed | stream | done | fail
  deriving DecidableEq, Repr

/-- `CAUSE` (10_state.md R31). -/
inductive Cause where
  | none | keyLengthError | entropySourceError | ioError
  deriving DecidableEq, Repr

/-- An answer of the input port (20_memory.md R51). -/
inductive InAnswer where
  /-- `Data(n, b)` -/
  | data (c : Chunk)
  /-- `Err` -/
  | err
  deriving DecidableEq, Repr

/-- An answer of the output port (20_memory.md R52). -/
inductive OutAnswer where
  | ok
  /-- `Short(m)`, for any `m`: the bound `m < n` is not part of the type, DESIGN CHOICE, notes/assumptions/10.md -/
  | short (m : Nat)
  | err
  deriving DecidableEq, Repr

/-- One slot of the schedule: who acts in the next step.  DEDUCED: host actions fall between the core's moves (notes/assumptions/6.md). -/
inductive Slot where
  /-- the core's sequencer -/
  | core
  /-- the host issues `KS.LOAD key` -/
  | load (key : List Byte)
  /-- the host issues `START d` -/
  | start (d : Dir)
  /-- the host issues `SR` -/
  | sr
  /-- the host resets the core -/
  | reset
  /-- MODEL'S OWN (notes/assumptions/5.md): the operation of this descriptor is performed by name, outside any run; no host action of the
  spec does this, and nothing in the machine puts such a slot there -/
  | select (descriptor : List Byte)
  deriving DecidableEq, Repr

/-- The operation a write belongs to: what is done once it has returned `Ok`, the rest of that operation's pseudocode. -/
inductive After where
  /-- `SF.WRITE` invoked by itself -/
  | bare
  | ivgen | encFull | encTail | decFull | decTail
  deriving DecidableEq, Repr

/-- On whose behalf a read is issued. -/
inductive Reader where
  /-- `SF.READ` invoked by itself -/
  | bare
  | stepSeed | stepStream
  deriving DecidableEq, Repr

/-- Where the operation in progress stands, between two of its steps: "a step of the core is one of: a whole port transaction …, or a pure
computation on its buffers" (00_scope.md R7).  `draw`, `read` and `write` are transactions that have been issued and not yet answered
(20_memory.md R65); `drawn`, `readDone` and `written` hold the answer, and the computation that uses it comes next; `offer` is a computation
done, and its write comes next.  DEDUCED, notes/assumptions/7.md and 8.md. -/
inductive Pending where
  /-- the draw of `CE.IVGEN` waits for its answer -/
  | draw
  /-- the draw was answered `Rand(m, b)` -/
  | drawn (c : Chunk)
  /-- a read waits for its answer -/
  | read (k : Reader)
  /-- the read was answered -/
  | readDone (k : Reader) (a : InAnswer)
  /-- the bytes `v` are ready, and their write has not been issued -/
  | offer (v : List Byte) (k : After)
  /-- the write of `v` waits for its answer -/
  | write (v : List Byte) (k : After)
  /-- the write of `v` was answered -/
  | written (v : List Byte) (k : After) (a : OutAnswer)
  deriving DecidableEq, Repr

/-- The transactions that have been issued and not yet answered. -/
def Pending.waiting : Pending → Bool
  | .draw => true
  | .read _ => true
  | .write _ _ => true
  | .drawn _ => false
  | .readDone _ _ => false
  | .offer _ _ => false
  | .written _ _ _ => false

/-- The value the last value-returning operation returned to its invoker.  DESIGN CHOICE, notes/assumptions/11.md. -/
inductive Returned where
  | nothing
  /-- `RF` -/
  | byte (b : Byte)
  /-- `KS.VIEW` -/
  | roundKey (v : Vector Byte 4)
  /-- `SF.READ` -/
  | chunk (c : Chunk)
  /-- `SR`: `STATUS` and `COUNT` -/
  | status (st : BitVec 8) (count : BitVec 64)
  deriving DecidableEq, Repr

/-- One event of the history: the port transactions with their answers, and where operations begin (10_state.md R36, "kept by the model as
a log").  What the sink holds after a failed or dropped write is not represented: DEDUCED, notes/assumptions/9.md, notes/assumptions/20.md. -/
inductive Event where
  /-- an accepted `START d` -/
  | started (d : Dir)
  | reset
  | read (a : InAnswer)
  /-- a draw of the entropy port -/
  | draw (c : Chunk)
  /-- a write of the bytes `v`.  When the answer is `Short(m)` or `Err` the sink holds an unspecified part of `v` (20_memory.md R52) -/
  | write (v : List Byte) (a : OutAnswer)
  /-- a write of `v` that reset dropped while it waited; the sink holds an unspecified part of `v` (93_implementation_defined.md U14) -/
  | dropped (v : List Byte)
  deriving DecidableEq, Repr

/-- The core stops with a fault: NEVER.  The type has no constructor.  The three errors of the spec (60_exceptions.md R180) do not stop
the machine: each is taken, as `SF.FAULT` describes it, and leads to a next state in `PHASE = FAIL`. -/
inductive Fault where
  deriving DecidableEq, Repr

/-- Why a step has no meaning.  Every one is safe: the step answers no state, so nothing can be proved of one. -/
inductive Refusal where
  /-- an operation whose arm of `exec` has no meaning yet; raised by `exec` only (safe).  At present no arm is one. -/
  | notModelled (mnemonic : String)
  /-- the operands of this operation are outside the bounds its rule gives (`Instr.wf`), so the term stands for no operation of the core;
  raised by `CE.ENC.TAIL`, `CE.DEC.TAIL`, `SF.WRITE` and `SF.FAULT` (safe).  The decoder never yields such a term. -/
  | illFormed (mnemonic : String)
  /-- a `select` slot holds bytes that the decoder rejects; raised by `step` (safe).  No other slot can raise it. -/
  | badDescriptor (bytes : List Byte)
  deriving DecidableEq, Repr

structure State where
  -- the spec's state (10_state.md R20)
  /-- `BLK[0..7]`, the block being transformed (R21) -/
  blk : Block
  /-- `PREV[0..7]`, the chain state (R23) -/
  prev : Block
  /-- `CT[0..7]`, the ciphertext chunk kept aside (R24) -/
  ct : Block
  /-- `KEY[0..63]` (R25) -/
  key : Key
  /-- `KEYLEN`, a natural number (R26) -/
  keylen : Nat
  /-- `DIR` (R27) -/
  dir : Dir
  /-- `PHASE` (R28) -/
  phase : Phase
  /-- `CAUSE` (R31) -/
  cause : Cause
  /-- `COUNT`, 64 bits, wraps (R30) -/
  count : BitVec 64
  /-- `ROUND`, hidden (R20, R29) -/
  round : RoundIndex
  /-- the lane index `i`, hidden (R29) -/
  lane : Fin 4
  /-- the key cursor of the decrypt rounds, a number, hidden (R29) -/
  cursor : Nat
  /-- the one-byte temporary `t`, hidden (R29) -/
  t : Byte
  -- the operation in progress and the value returned (the model's own)
  /-- where the operation in progress stands: the transaction it waits for (20_memory.md R65), or the step that comes next (00_scope.md R7);
  `none` between operations -/
  pending : Option Pending
  /-- the value the last operation returned -/
  ret : Returned
  -- the environment (the model's own; R36)
  /-- who acts next; when the list has ended, the core acts in every step -/
  sched : List Slot
  /-- what the input port will answer, `none` where it is silent for one step; when the list has ended it never answers -/
  inQ : List (Option InAnswer)
  /-- what the output port will answer, in the same form -/
  outQ : List (Option OutAnswer)
  /-- what the entropy port will answer, `Rand(m, b)`, in the same form -/
  rngQ : List (Option Chunk)
  -- the history and the free values (the model's own)
  /-- every transaction so far, the newest first -/
  log : List Event
  /-- how many free values have been drawn -/
  freeCounter : Nat
  deriving DecidableEq, Repr

/-- The state after reset (10_state.md R34, 70_reset_and_hazards.md R210).  `PHASE`, `CAUSE`, `COUNT`, `DIR` and `KEYLEN` as the spec states;
`KEY`, `BLK`, `PREV`, `CT` and the hidden round state are "unspecified" there and zero here, DESIGN CHOICE, unsafe
(notes/assumptions/1.md); the environment is silent and the history empty, DESIGN CHOICE (notes/assumptions/3.md). -/
def State.reset : State where
  blk := Vector.replicate 8 0
  prev := Vector.replicate 8 0
  ct := Vector.replicate 8 0
  key := Vector.replicate 64 0
  keylen := 0
  dir := .encrypt
  phase := .idle
  cause := .none
  count := 0
  round := 0
  lane := 0
  cursor := 0
  t := 0
  pending := none
  ret := .nothing
  sched := []
  inQ := []
  outQ := []
  rngQ := []
  log := []
  freeCounter := 0

/-- What a step or an operation answers. -/
abbrev Result := Host.Outcome State Fault Refusal

end Sys2Proof.Machine
end

