-- ==== Sys2Proof/Machine/Flags.lean ====
section
/-!
DEFINITION. The status flags, the status word and the count (spec/10_state.md R28, R30 to R32; 30_encoding.md R86; 43_stream_framer.md R171).
The core has no arithmetic flags (R32); its three flags are functions of `PHASE`.
-/

namespace Sys2Proof.Machine

/-- The code of `PHASE` in `STATUS[2:0]` (R28). -/
def Phase.code : Phase → BitVec 3
  | .idle => 0
  | .seed => 1
  | .stream => 2
  | .done => 3
  | .fail => 4

/-- The code of `CAUSE` in `STATUS[4:3]` (R31). -/
def Cause.code : Cause → BitVec 2
  | .none => 0
  | .keyLengthError => 1
  | .entropySourceError => 2
  | .ioError => 3

/-- The value that `raise E` records (60_exceptions.md R180, R187). -/
def causeOf : ErrorKind → Cause
  | .keyLength => .keyLengthError
  | .entropySource => .entropySourceError
  | .io => .ioError

/-- "Busy" is `PHASE = SEED or PHASE = STREAM` (R28). -/
def Phase.busy : Phase → Bool
  | .seed => true
  | .stream => true
  | .idle => false
  | .done => false
  | .fail => false

/-- The flag `BUSY` (R32). -/
def State.busyFlag (s : State) : Bool := s.phase.busy

/-- The flag `DONE` (R32). -/
def State.doneFlag (s : State) : Bool := s.phase == .done

/-- The flag `FAIL` (R32). -/
def State.failFlag (s : State) : Bool := s.phase == .fail

/-- `STATUS = {00, DIR, CAUSE, PHASE}` (30_encoding.md R86). -/
def statusWord (d : Dir) (c : Cause) (p : Phase) : BitVec 8 := 0#2 ++ d.code ++ c.code ++ p.code

/-- `STATUS` of a state. -/
def State.status (s : State) : BitVec 8 := statusWord s.dir s.cause s.phase

/-- `COUNT + n (mod 2^64)` (R30). -/
def addCount (c : BitVec 64) (n : Nat) : BitVec 64 := c + BitVec.ofNat 64 n

/-- Where R171 gives the `COUNT` that `SR` returns no value: while busy, and in `FAIL` after another error than `KeyLengthError`. -/
def countUnspecified (p : Phase) (c : Cause) : Bool :=
  match p with
  | .idle => false
  | .done => false
  | .seed => true
  | .stream => true
  | .fail => c != .keyLengthError

/-- The `COUNT` that `SR` returns: the register, or a free value where R171 says "unspecified" (notes/assumptions/2.md). -/
def State.countRead (s : State) : BitVec 64 :=
  if countUnspecified s.phase s.cause then Config.unspecifiedCount s.freeCounter else s.count

end Sys2Proof.Machine
end

