-- ==== Sys2Proof/Machine/Operands.lean ====
section
/-!
DEFINITION. Operand forms: the halves of a block, whole-buffer exclusive or, the first bytes of a block, the key index in both directions
(spec/10_state.md R22; 00_scope.md R12; 30_encoding.md R81, R87 to R89; 41_key_schedule.md R132).  `pad8`, `SEL` and `RS` are in Decode.lean.
-/

namespace Sys2Proof.Machine

/-- `left[i] = BLK[i]` (R22). -/
def leftByte (b : Block) (i : Fin 4) : Byte := b[i.val]

/-- `right[i] = BLK[4 + i]` (R22). -/
def rightByte (b : Block) (i : Fin 4) : Byte := b[4 + i.val]

/-- `left[i] <- v`, a write to `BLK[i]` (R22). -/
def setLeft (b : Block) (i : Fin 4) (v : Byte) : Block := b.set i.val v

/-- `right[i] <- v`, a write to `BLK[4 + i]` (R22). -/
def setRight (b : Block) (i : Fin 4) (v : Byte) : Block := b.set (4 + i.val) v

/-- `A ^ B` on 8-byte buffers, byte by byte (00_scope.md R12). -/
def xorBlock (a b : Block) : Block := Vector.ofFn fun j => a[j] ^^^ b[j]

/-- `BLK[0..n)` as the bytes of a write (R87, 42_chaining_engine.md R142). -/
def firstBytes (n : Nat) (b : Block) : List Byte := b.toList.take n

/-- The key index `r*k + i = 4r + i` of round `r`, lane `i`, always inside the key store (R88; 40_block_transform.md R119). -/
def keyIndex (r : RoundIndex) (i : Fin 4) : Fin 64 := ⟨4 * r.toNat + i.val, by have := r.isLt; have := i.isLt; omega⟩

/-- The key cursor at the start of the decrypt round with index `r`: `cursor = r*k = 4r` (R89; 90_conflicts.md C1). -/
def cursorOf (r : RoundIndex) : Nat := Config.half * r.toNat

/-- The key index `cursor + i` of the decrypt round with index `r` (R89). -/
def cursorIndex (r : RoundIndex) (i : Fin 4) : Fin 64 :=
  ⟨cursorOf r + i.val, by have := r.isLt; have := i.isLt; simp only [cursorOf, Config.half]; omega⟩

/-- `KS.VIEW(r) = KEY[4r .. 4r+3]` (R132). -/
def roundKey (key : Key) (r : RoundIndex) : Vector Byte 4 := Vector.ofFn fun i => key[keyIndex r i]

/-- `KEY[j] <- key[j]` for `j < min(n, 64)`; the other bytes keep their value (41_key_schedule.md R130). -/
def storeKey (old : Key) (key : List Byte) : Key := Vector.ofFn fun j => key.getD j.val old[j]

end Sys2Proof.Machine
end

