-- ==== Sys2Proof/Machine/Ops.lean ====
section
/-!
DEFINITION. The operations that the meanings share: the round function and the lane steps, the abort action, the three port primitives,
what follows a write, and reset.  A port primitive is a step of its own (spec/00_scope.md R7): it leaves its answer, or itself while the
port is silent, in `State.pending`, and the operation goes on from there (`advance`, in Moves.lean).
-/

namespace Sys2Proof.Machine

/-! ### The round function and the lanes -/

/-- `RF(x, kb) = kb` (40_block_transform.md R110). -/
def rf (_x kb : Byte) : Byte := kb

/-- Lane `i` of an encrypt round (R111): `t <- right[i]; right[i] <- left[i] ^ RF(right[i], KEY[r*k + i]); left[i] <- t`. -/
def laneE (r : RoundIndex) (i : Fin 4) (s : State) : State :=
  let s := { s with lane := i, t := rightByte s.blk i }
  let s := { s with blk := setRight s.blk i (leftByte s.blk i ^^^ rf (rightByte s.blk i) s.key[keyIndex r i]) }
  { s with blk := setLeft s.blk i s.t }

/-- Lane `i` of a decrypt round (R113): `t <- left[i]; left[i] <- right[i] ^ RF(left[i], KEY[cursor + i]); right[i] <- t`. -/
def laneD (r : RoundIndex) (i : Fin 4) (s : State) : State :=
  let s := { s with lane := i, t := leftByte s.blk i }
  let s := { s with blk := setLeft s.blk i (rightByte s.blk i ^^^ rf (leftByte s.blk i) s.key[cursorIndex r i]) }
  { s with blk := setRight s.blk i s.t }

/-- `for i = 0 to 3`. -/
def lanes : List (Fin 4) := [0, 1, 2, 3]

/-- One encrypt round with index `r` (R111). -/
def roundE (r : RoundIndex) (s : State) : State := lanes.foldl (fun s i => laneE r i s) s

/-- One decrypt round with index `r`: `cursor <- r*k`, then the lanes (R113). -/
def roundD (r : RoundIndex) (s : State) : State :=
  lanes.foldl (fun s i => laneD r i s) { s with cursor := cursorOf r }

/-- `for r = 0 to 15` (R112). -/
def encRounds : List RoundIndex := [0, 1, 2, 3, 4, 5, 6, 7, 8, 9, 10, 11, 12, 13, 14, 15]

/-- `for r = 15 downto 0` (R114). -/
def decRounds : List RoundIndex := [15, 14, 13, 12, 11, 10, 9, 8, 7, 6, 5, 4, 3, 2, 1, 0]

/-- The Encrypt-transform: for each round, `ROUND <- r`, then `FR.E` (R112).  What it leaves in the hidden state: DEDUCED,
notes/assumptions/13.md. -/
def blockEnc (s : State) : State := encRounds.foldl (fun s r => roundE r { s with round := r }) s

/-- The Decrypt-transform: for each round, `ROUND <- r`, then `FR.D` (R114). -/
def blockDec (s : State) : State := decRounds.foldl (fun s r => roundD r { s with round := r }) s

/-! ### The abort action -/

/-- `SF.FAULT`, what `raise E` means in every rule (60_exceptions.md R187): `CAUSE <- code(E)`, `PHASE <- FAIL`, the rest of the
operation is not performed (so nothing of it stays pending).  There is no return from it (R188): only `START` and reset leave `FAIL`.  Clearing `pending`: DEDUCED,
notes/assumptions/18.md. -/
def raise (e : ErrorKind) (s : State) : State := { s with cause := causeOf e, phase := .fail, pending := none }

/-! ### The port primitives -/

/-- `RngRead()` (20_memory.md R53): the answer is consumed; a silent port leaves the draw waiting. -/
def askDraw (s : State) : State :=
  match s.rngQ with
  | some c :: q => { s with rngQ := q, pending := some (.drawn c), log := .draw c :: s.log }
  | none :: q => { s with rngQ := q, pending := some .draw }
  | [] => { s with pending := some .draw }

/-- `InRead()` on behalf of `k` (20_memory.md R51). -/
def askRead (k : Reader) (s : State) : State :=
  match s.inQ with
  | some a :: q => { s with inQ := q, pending := some (.readDone k a), log := .read a :: s.log }
  | none :: q => { s with inQ := q, pending := some (.read k) }
  | [] => { s with pending := some (.read k) }

/-- `OutWrite(n, v)` with `n` the length of `v`, for the operation `k` (20_memory.md R52). -/
def askWrite (v : List Byte) (k : After) (s : State) : State :=
  match s.outQ with
  | some a :: q => { s with outQ := q, pending := some (.written v k a), log := .write v a :: s.log }
  | none :: q => { s with outQ := q, pending := some (.write v k) }
  | [] => { s with pending := some (.write v k) }

/-- The operation `k` has computed the bytes `v`; their write comes next. -/
def offer (v : List Byte) (k : After) (s : State) : State := { s with pending := some (.offer v k) }

/-! ### After a write -/

/-- The rest of an operation after its write of `n` bytes has returned `Ok` (42_chaining_engine.md R140 to R145). -/
def finish (k : After) (n : Nat) (s : State) : State :=
  match k with
  | .bare => s
  | .ivgen => { s with prev := s.blk, phase := .stream }
  | .encFull => { s with prev := s.blk, count := addCount s.count n }
  | .encTail => { s with count := addCount s.count n, phase := .done }
  | .decFull => { s with prev := s.ct, count := addCount s.count n }
  | .decTail => { s with count := addCount s.count n, phase := .done }

/-- `if w != Ok: raise IOError`, else the rest of the operation (43_stream_framer.md R162). -/
def afterWrite (v : List Byte) (k : After) (a : OutAnswer) (s : State) : State :=
  match a with
  | .ok => finish k v.length { s with pending := none }
  | .short _ => raise .io s
  | .err => raise .io s

/-! ### Reset -/

/-- The history after reset: a write that was waiting is dropped, and the sink may hold any part of it (93_implementation_defined.md U14). -/
def logReset (s : State) : List Event :=
  match s.pending with
  | some (.write v _) => .reset :: .dropped v :: s.log
  | some .draw => .reset :: s.log
  | some (.drawn _) => .reset :: s.log
  | some (.read _) => .reset :: s.log
  | some (.readDone _ _) => .reset :: s.log
  | some (.offer _ _) => .reset :: s.log
  | some (.written _ _ _) => .reset :: s.log
  | none => .reset :: s.log

/-- Reset at any time (70_reset_and_hazards.md R210, R211): the core's state becomes that of `State.reset`, a waiting transaction is dropped,
and the environment and the history stay (DESIGN CHOICE, notes/assumptions/24.md). -/
def resetCore (s : State) : State :=
  { State.reset with
    sched := s.sched, inQ := s.inQ, outQ := s.outQ, rngQ := s.rngQ, log := logReset s, freeCounter := s.freeCounter }

end Sys2Proof.Machine
end

