-- ==== Sys2Proof/Machine/BlockTransform.lean ====
section
/-!
DEFINITION. The block transform family: `RF`, `FR.E`, `FR.D`, `BT.ENC`, `BT.DEC` (spec/40_block_transform.md).
-/

namespace Sys2Proof.Machine

/-- `RF(x, kb)`: returns `kb`; no state is read or written (R110). -/
def execRf (x kb : Byte) (s : State) : Result := .next { s with ret := .byte (rf x kb) }

/-- `FR.E` with the round index of its selector, `RS[3:0]` (R111); `ROUND` itself is written by `BT.*` only (10_state.md R20): DEDUCED,
notes/assumptions/12.md. -/
def execFrE (r : RoundIndex) (s : State) : Result := .next (roundE r s)

/-- `FR.D` with the round index of its selector (R113). -/
def execFrD (r : RoundIndex) (s : State) : Result := .next (roundD r s)

/-- `BT.ENC` (R112). -/
def execBtEnc (s : State) : Result := .next (blockEnc s)

/-- `BT.DEC` (R114). -/
def execBtDec (s : State) : Result := .next (blockDec s)

end Sys2Proof.Machine
end

