-- ==== Sys2Proof/Machine/Moves.lean ====
section
/-!
DEFINITION. The moves of the core: the computations of the chaining engine and the stream framer between their transactions
(spec/42_chaining_engine.md, spec/43_stream_framer.md), and `advance`, the step that comes next in an operation.  "A step of the core is one
of: a whole port transaction …, or a pure computation on its buffers" (00_scope.md R7).  An operation's pseudocode is cut at its transactions
and nowhere else.
-/

namespace Sys2Proof.Machine

/-! ### The computations of the chaining engine, up to the write -/

/-- R140 after the draw: fewer than 8 bytes raise `EntropySourceError`; else `BLK <- b; BT.ENC`, and the block is to be written. -/
def ceIvgen (c : Chunk) (s : State) : State :=
  if c.len = Config.blockSize then
    let s := blockEnc { s with blk := pad8 c.bytes }
    offer s.blk.toList .ivgen s
  else raise .entropySource s

/-- R141 up to the write: `BLK <- b; BLK <- BLK ^ PREV; BT.ENC`. -/
def ceEncFull (b : Block) (s : State) : State :=
  let s := { s with blk := b }
  let s := { s with blk := xorBlock s.blk s.prev }
  let s := blockEnc s
  offer s.blk.toList .encFull s

/-- R142 up to the write: `BLK <- pad8(b); BLK <- BLK ^ PREV; BT.ENC`; the first `n` bytes are to be written. -/
def ceEncTail (b : List Byte) (s : State) : State :=
  let s := { s with blk := pad8 b }
  let s := { s with blk := xorBlock s.blk s.prev }
  let s := blockEnc s
  offer (firstBytes b.length s.blk) .encTail s

/-- R143: `PREV <- b; PHASE <- STREAM`, and nothing else. -/
def ceIvload (b : Block) (s : State) : State := { s with prev := b, phase := .stream }

/-- R144 up to the write: `CT <- b; BLK <- CT; BT.DEC; BLK <- BLK ^ PREV`. -/
def ceDecFull (b : Block) (s : State) : State :=
  let s := { s with ct := b }
  let s := { s with blk := s.ct }
  let s := blockDec s
  let s := { s with blk := xorBlock s.blk s.prev }
  offer s.blk.toList .decFull s

/-- R145 up to the write: `BLK <- pad8(b); BLK <- BLK ^ PREV` and no block transform (R147); the first `n` bytes are to be written. -/
def ceDecTail (b : List Byte) (s : State) : State :=
  let s := { s with blk := pad8 b }
  let s := { s with blk := xorBlock s.blk s.prev }
  offer (firstBytes b.length s.blk) .decTail s

/-! ### What the stream framer does with a chunk -/

/-- R165: `PHASE <- DONE`. -/
def endOp (s : State) : State := { s with phase := .done }

/-- The IV step of the decrypt direction (R163): 8 bytes are `CE.IVLOAD`, fewer are `IOError` (60_exceptions.md R184). -/
def seedChunk (c : Chunk) (s : State) : State :=
  if c.len = Config.blockSize then ceIvload (pad8 c.bytes) s else raise .io s

/-- The loop (R164): the operation that `DIR` and the length of the chunk select. -/
def streamChunk (c : Chunk) (s : State) : State :=
  if c.len = Config.blockSize then
    match s.dir with
    | .encrypt => ceEncFull (pad8 c.bytes) s
    | .decrypt => ceDecFull (pad8 c.bytes) s
  else if 1 ≤ c.len then
    match s.dir with
    | .encrypt => ceEncTail c.bytes s
    | .decrypt => ceDecTail c.bytes s
  else endOp s

/-- What the invoker of `SF.READ` does with the chunk; `SF.READ` by itself returns it (R161). -/
def useChunk (k : Reader) (c : Chunk) (s : State) : State :=
  match k with
  | .bare => { s with ret := .chunk c }
  | .stepSeed => seedChunk c s
  | .stepStream => streamChunk c s

/-- `if a = Err: raise IOError` (R161), else what the invoker does with the chunk. -/
def afterRead (k : Reader) (a : InAnswer) (s : State) : State :=
  match a with
  | .data c => useChunk k c { s with pending := none }
  | .err => raise .io s

/-! ### One move, and an operation as a whole -/

/-- The step that comes next in the operation in progress: a waiting transaction is asked again (20_memory.md R65: "a blocked read or write
blocks the whole operation"), a write that is due is issued, or the computation that uses an answer is performed.  DEDUCED,
notes/assumptions/8.md. -/
def advance (p : Pending) (s : State) : State :=
  match p with
  | .draw => askDraw s
  | .drawn c => ceIvgen c { s with pending := none }
  | .read k => askRead k s
  | .readDone k a => afterRead k a s
  | .offer v k => askWrite v k s
  | .write v k => askWrite v k s
  | .written v k a => afterWrite v k a s

/-- At most `n` further moves of the operation in progress: until it has ended, or waits for a port. -/
def carryOn : Nat → State → State
  | 0, s => s
  | n + 1, s =>
    match s.pending with
    | none => s
    | some p => if p.waiting then s else carryOn n (advance p s)

/-- An operation as a whole, performed from its first step `s` on as far as the ports answer.  No operation has more than three moves after
its first: `SF.STEP` reads, computes, writes and finishes. -/
def complete (s : State) : State := carryOn 3 s

/-- The first move of `SF.STEP` when `PHASE = SEED` (R163): the draw of `CE.IVGEN`, or the read of the first chunk. -/
def seedFirst (s : State) : State :=
  match s.dir with
  | .encrypt => askDraw s
  | .decrypt => askRead .stepSeed s

/-- The first move of `SF.STEP` when `PHASE = STREAM` (R164): the read. -/
def streamFirst (s : State) : State := askRead .stepStream s

end Sys2Proof.Machine
end

