-- ==== Sys2Proof/Machine/ChainingEngine.lean ====
section
/-!
DEFINITION. The chaining engine family: `CE.IVGEN`, `CE.ENC.FULL`, `CE.ENC.TAIL`, `CE.IVLOAD`, `CE.DEC.FULL`, `CE.DEC.TAIL`
(spec/42_chaining_engine.md), each performed as a whole.  Their computations are in Moves.lean, what follows their writes is `finish` in
Ops.lean.  No operation checks `PHASE` or `DIR`: the sequencer's selection does (DEDUCED, notes/assumptions/14.md).
-/

namespace Sys2Proof.Machine

/-- `CE.IVGEN` (R140). -/
def execCeIvgen (s : State) : Result := .next (complete (askDraw s))

/-- `CE.ENC.FULL` (R141). -/
def execCeEncFull (b : Block) (s : State) : Result := .next (complete (ceEncFull b s))

/-- `CE.ENC.TAIL` (R142), whose chunk has 1 to 7 bytes. -/
def execCeEncTail (b : List Byte) (s : State) : Result :=
  if tailLength b then .next (complete (ceEncTail b s)) else .refused (.illFormed "CE.ENC.TAIL")

/-- `CE.IVLOAD` (R143). -/
def execCeIvload (b : Block) (s : State) : Result := .next (ceIvload b s)

/-- `CE.DEC.FULL` (R144). -/
def execCeDecFull (b : Block) (s : State) : Result := .next (complete (ceDecFull b s))

/-- `CE.DEC.TAIL` (R145), whose chunk has 1 to 7 bytes. -/
def execCeDecTail (b : List Byte) (s : State) : Result :=
  if tailLength b then .next (complete (ceDecTail b s)) else .refused (.illFormed "CE.DEC.TAIL")

end Sys2Proof.Machine
end

