-- ==== Sys2Proof/Machine/Exceptions.lean ====
section
/-!
DEFINITION. `SF.FAULT` as an operation of its own (spec/60_exceptions.md R184, R187).  The abort action that every `raise` performs is
`raise` in Ops.lean.
-/

namespace Sys2Proof.Machine

/-- `SF.FAULT` (R187).  The `SEL` class `110nnn` raises `IOError` (R184), whose first read had 0 to 7 bytes. -/
def execSfFault (src : FaultSource) (s : State) : Result :=
  match src with
  | .shortFirstRead b => if shortLength b then .next (raise .io s) else .refused (.illFormed "SF.FAULT")
  | .raised e => .next (raise e s)

end Sys2Proof.Machine
end

