-- ==== Sys2Proof/Machine/KeySchedule.lean ====
section
/-!
DEFINITION. The key schedule family: `KS.LOAD`, `KS.CHECK`, `KS.VIEW` (spec/41_key_schedule.md).
-/

namespace Sys2Proof.Machine

/-- `KS.LOAD key` (R130).  While busy it is refused, which means that no state changes (R134); else `KEYLEN <- n` and the first 64 bytes
are stored. -/
def execKsLoad (key : List Byte) (s : State) : Result :=
  .next (if s.phase.busy then s else { s with keylen := key.length, key := storeKey s.key key })

/-- `KS.CHECK`: `if KEYLEN != 64: raise KeyLengthError`, else go on with `ok` (R131). -/
def keyCheckThen (ok : State → State) (s : State) : State :=
  if s.keylen = Config.keyBytes then ok s else raise .keyLength s

/-- `KS.CHECK` by itself (R131). -/
def execKsCheck (s : State) : Result := .next (keyCheckThen id s)

/-- `KS.VIEW(r)`: returns the four bytes of the round key of round `r` (R132). -/
def execKsView (r : RoundIndex) (s : State) : Result := .next { s with ret := .roundKey (roundKey s.key r) }

end Sys2Proof.Machine
end

