-- ==== Sys2Proof/Machine/StreamFramer.lean ====
section
/-!
DEFINITION. The stream framer family: `START`, `SF.READ`, `SF.WRITE`, `SF.STEP` (its two rows), `SF.END`, `SR`
(spec/43_stream_framer.md), each performed as a whole.
-/

namespace Sys2Proof.Machine

/-- R160.  While busy `START` is refused, which means that no state changes; else `DIR <- d; COUNT <- 0; CAUSE <- NONE; KS.CHECK;
PHASE <- SEED`. -/
def startOp (d : Dir) (s : State) : State :=
  if s.phase.busy then s
  else
    keyCheckThen (fun s => { s with phase := .seed })
      { s with dir := d, count := 0, cause := .none, log := .started d :: s.log }

/-- `START d` (R160). -/
def execStart (d : Dir) (s : State) : Result := .next (startOp d s)

/-- `SF.READ` (R161), by itself: it returns the chunk. -/
def execSfRead (s : State) : Result := .next (complete (askRead .bare s))

/-- `SF.WRITE(n, v)`, `n` in 1..8 (R162). -/
def execSfWrite (v : List Byte) (s : State) : Result :=
  if writeLength v then .next (complete (askWrite v .bare s)) else .refused (.illFormed "SF.WRITE")

/-- `SF.STEP` with `SEL[4] = 1` (R163), as a whole. -/
def execSfStepSeed (s : State) : Result := .next (complete (seedFirst s))

/-- `SF.STEP` with `SEL[4] = 0` (R164), as a whole. -/
def execSfStepStream (s : State) : Result := .next (complete (streamFirst s))

/-- `SF.END` (R165), the same in either direction. -/
def execSfEnd (_d : Dir) (s : State) : Result := .next (endOp s)

/-- R171: `return (STATUS = {00, DIR, CAUSE, PHASE}, COUNT)`; no state of the core changes.  Where the count is unspecified it is a free
value, and the counter of free values advances. -/
def readStatus (s : State) : State :=
  { s with
    ret := .status s.status s.countRead
    freeCounter := if countUnspecified s.phase s.cause then s.freeCounter + 1 else s.freeCounter }

/-- `SR` (R171). -/
def execSr (s : State) : Result := .next (readStatus s)

end Sys2Proof.Machine
end

