-- ==== Sys2Proof/Machine/Dispatch.lean ====
section
/-!
DEFINITION. One arm per operation of spec/opcode_table.json.
-/

namespace Sys2Proof.Machine

def exec (i : Instr) (s : State) : Host.Outcome State Fault Refusal :=
  match i with
  | .rf x kb => Sys2Proof.Machine.execRf x kb s
  | .frE r => Sys2Proof.Machine.execFrE r s
  | .frD r => Sys2Proof.Machine.execFrD r s
  | .btEnc => Sys2Proof.Machine.execBtEnc s
  | .btDec => Sys2Proof.Machine.execBtDec s
  | .ksLoad key => Sys2Proof.Machine.execKsLoad key s
  | .ksCheck => Sys2Proof.Machine.execKsCheck s
  | .ksView r => Sys2Proof.Machine.execKsView r s
  | .ceIvgen => Sys2Proof.Machine.execCeIvgen s
  | .ceEncFull b => Sys2Proof.Machine.execCeEncFull b s
  | .ceEncTail b => Sys2Proof.Machine.execCeEncTail b s
  | .ceIvload b => Sys2Proof.Machine.execCeIvload b s
  | .ceDecFull b => Sys2Proof.Machine.execCeDecFull b s
  | .ceDecTail b => Sys2Proof.Machine.execCeDecTail b s
  | .start d => Sys2Proof.Machine.execStart d s
  | .sfRead => Sys2Proof.Machine.execSfRead s
  | .sfWrite v => Sys2Proof.Machine.execSfWrite v s
  | .sfStepSeed => Sys2Proof.Machine.execSfStepSeed s
  | .sfStepStream => Sys2Proof.Machine.execSfStepStream s
  | .sfEnd d => Sys2Proof.Machine.execSfEnd d s
  | .sfFault src => Sys2Proof.Machine.execSfFault src s
  | .sr => Sys2Proof.Machine.execSr s

end Sys2Proof.Machine
end

