-- ==== Sys2Proof/Machine/Fetch.lean ====
section
/-!
DEFINITION. What comes next.  "The core has no program counter and fetches no instructions.  What comes next is decided by `PHASE`, `DIR`
and the length of the chunk just read" (spec/10_state.md R28), and by the host between the core's steps (00_scope.md R8).
-/

namespace Sys2Proof.Machine

/-- What the machine does next. -/
inductive NextOp where
  /-- it performs the operation `i` in the state `s` -/
  | run (i : Instr) (s : State)
  /-- it goes to the state `s`: a move of the core, or reset -/
  | become (s : State)
  /-- a `select` slot held these bytes, which are no descriptor -/
  | bad (bytes : List Byte)
  deriving DecidableEq, Repr

/-- The sequencer's move, one step of R7: the next step of the operation in progress; else, as "the sequencer performs `SF.STEP` again and
again for as long as the core is busy" (43_stream_framer.md R160), the first step of the row of `SF.STEP` that `SEL[4]` selects; "when not
busy the core does nothing until a host action" (60_exceptions.md R196). -/
def coreMove (s : State) : State :=
  match s.pending with
  | some p => advance p s
  | none =>
    match s.phase with
    | .seed => seedFirst s
    | .stream => streamFirst s
    | .idle => s
    | .done => s
    | .fail => s

/-- The bytes of a descriptor as an operation. -/
def selectNext (bytes : List Byte) (s : State) : NextOp :=
  match decode bytes with
  | .ok i => .run i s
  | .error _ => .bad bytes

/-- Who acts next, by the schedule, and what it does. -/
def nextOp (s : State) : NextOp :=
  match s.sched with
  | [] => .become (coreMove s)
  | .core :: q => .become (coreMove { s with sched := q })
  | .load key :: q => .run (.ksLoad key) { s with sched := q }
  | .start d :: q => .run (.start d) { s with sched := q }
  | .sr :: q => .run .sr { s with sched := q }
  | .reset :: q => .become (resetCore { s with sched := q })
  | .select bytes :: q => selectNext bytes { s with sched := q }

/-- `s` with the descriptor of a word of opcode_table.json selected for the next step (notes/assumptions/5.md). -/
def selectTableWord (s : State) (nbits w : Nat) : State := { s with sched := .select (tableBytes nbits w) :: s.sched }

end Sys2Proof.Machine
end

