-- ==== Sys2Proof/Machine/Step.lean ====
section
/-!
DEFINITION. One step of the machine: a host action, a reset, or a move of the core's sequencer (spec/00_scope.md R7, R8).
-/

namespace Sys2Proof.Machine

/-- One step.  It is deterministic: everything the environment decides stands in the state's queues (43_stream_framer.md R172). -/
def step (s : State) : Host.Outcome State Fault Refusal :=
  match nextOp s with
  | .run i s' => exec i s'
  | .become s' => .next s'
  | .bad bytes => .refused (.badDescriptor bytes)

/-- `s` set so that the very next step performs the operation of a word of opcode_table.json: the word's descriptor is selected.  Nothing
else changes; the ports answer what they would answer anyway. -/
def State.withFetchWord (s : State) (nbits w : Nat) : State := selectTableWord s nbits w

end Sys2Proof.Machine
end

