-- ==== Sys2Proof/Safety.lean ====
section
/-!
DEFINITION. The terms that claims use: what the history says, when two states differ in hidden state only, the invariant of a run, the
allowed moves of `PHASE`, and whole runs under a well-behaved source (spec/20_memory.md R55; 42_chaining_engine.md R148).
-/

namespace Sys2Proof.Machine

/-! ### The history -/

/-- The bytes the sink accepted, in order, in the operation that is running or ran last: the writes that returned `Ok` since the last
`START` or reset (43_stream_framer.md R172: "out = all bytes of writes that returned Ok, in order"). -/
def runOut : List Event → List Byte
  | [] => []
  | .started _ :: _ => []
  | .reset :: _ => []
  | .write v .ok :: l => runOut l ++ v
  | .write _ (.short _) :: l => runOut l
  | .write _ .err :: l => runOut l
  | .read _ :: l => runOut l
  | .draw _ :: l => runOut l
  | .dropped _ :: l => runOut l

/-- The last full chunk the input delivered in that operation. -/
def lastFullRead : List Event → Option Block
  | [] => none
  | .started _ :: _ => none
  | .reset :: _ => none
  | .read (.data c) :: l => if c.len = Config.blockSize then some (pad8 c.bytes) else lastFullRead l
  | .read .err :: l => lastFullRead l
  | .write _ _ :: l => lastFullRead l
  | .draw _ :: l => lastFullRead l
  | .dropped _ :: l => lastFullRead l

/-- A read of the input port. -/
def Event.isRead : Event → Bool
  | .read _ => true
  | _ => false

/-- A draw of the entropy port. -/
def Event.isDraw : Event → Bool
  | .draw _ => true
  | _ => false

/-- A write of the output port. -/
def Event.isWrite : Event → Bool
  | .write _ _ => true
  | _ => false

/-- How many events of a kind a history holds. -/
def eventCount (p : Event → Bool) (l : List Event) : Nat := l.countP p

/-! ### Hidden state -/

/-- `a` and `b` are equal but for `ROUND`, the lane index, the cursor and `t`, which "have no meaning between block transforms"
(10_state.md R29). -/
def sameButHidden (a b : State) : Prop := { a with round := b.round, lane := b.lane, cursor := b.cursor, t := b.t } = b

/-- The bytes and the operation of the write that is due, waits for its answer, or has been answered and not yet finished. -/
def writeOf (s : State) : Option (List Byte × After) :=
  match s.pending with
  | some (.offer v k) => some (v, k)
  | some (.write v k) => some (v, k)
  | some (.written v k _) => some (v, k)
  | some .draw => none
  | some (.drawn _) => none
  | some (.read _) => none
  | some (.readDone _ _) => none
  | none => none

/-- `a` and `b` agree in all that is live (10_state.md R35): in every field but the key, the buffers and the hidden round state; in the key
once `KEYLEN` is 64; in `PREV` while `PHASE = STREAM`; in `BLK` from the computation of an operation to what follows its write, and there
in `CT` when the operation is `CE.DEC.FULL`. -/
structure LiveAgree (a b : State) : Prop where
  rest : b =
    { a with
      blk := b.blk, prev := b.prev, ct := b.ct, key := b.key, round := b.round, lane := b.lane, cursor := b.cursor, t := b.t }
  key_live : a.keylen = 64 → b.key = a.key
  prev_live : a.phase = .stream → b.prev = a.prev
  blk_live : ∀ v k, writeOf a = some (v, k) → b.blk = a.blk
  ct_live : ∀ v, writeOf a = some (v, .decFull) → b.ct = a.ct

/-- The mask `M(K)` (40_block_transform.md R117): byte `j` is the exclusive or of the key bytes `8m + j`, `m` = 0..7, so `M[i]` collects the
even rounds and `M[4 + i]` the odd ones. -/
def keyMask (key : Key) : Block :=
  Vector.ofFn fun j : Fin 8 =>
    key[j.val] ^^^ key[8 + j.val] ^^^ key[16 + j.val] ^^^ key[24 + j.val] ^^^ key[32 + j.val] ^^^ key[40 + j.val] ^^^
      key[48 + j.val] ^^^ key[56 + j.val]

/-! ### The invariant -/

/-- No slot of the schedule selects an operation by name: the machine moves as the spec's own agents move it. -/
def noSelect (l : List Slot) : Prop := ∀ d, Slot.select d ∉ l

/-- The first slot of the schedule does not select an operation by name. -/
def headNotSelect (s : State) : Prop := ∀ d q, s.sched ≠ .select d :: q

/-- A write of `v` for the operation `k` belongs to the operation that `PHASE` and `DIR` say is running, and offers bytes of `BLK`. -/
def writeFits (s : State) (v : List Byte) (k : After) : Prop :=
  match k with
  | .bare => False
  | .ivgen => s.phase = .seed ∧ s.dir = .encrypt ∧ v = s.blk.toList
  | .encFull => s.phase = .stream ∧ s.dir = .encrypt ∧ v = s.blk.toList
  | .encTail => s.phase = .stream ∧ s.dir = .encrypt ∧ tailLength v ∧ v = firstBytes v.length s.blk
  | .decFull => s.phase = .stream ∧ s.dir = .decrypt ∧ v = s.blk.toList ∧ lastFullRead s.log = some s.ct
  | .decTail => s.phase = .stream ∧ s.dir = .decrypt ∧ tailLength v ∧ v = firstBytes v.length s.blk

/-- A read on behalf of `k` belongs to the operation that `PHASE` and `DIR` say is running. -/
def readFits (s : State) (k : Reader) : Prop :=
  match k with
  | .bare => False
  | .stepSeed => s.phase = .seed ∧ s.dir = .decrypt
  | .stepStream => s.phase = .stream

/-- The operation in progress is the one that `PHASE` and `DIR` say is running; an answer that is held is the newest event of the history
(20_memory.md R60: each transaction is complete before the next is issued). -/
def pendingFits (s : State) : Prop :=
  match s.pending with
  | none => True
  | some .draw => s.phase = .seed ∧ s.dir = .encrypt
  | some (.drawn c) => s.phase = .seed ∧ s.dir = .encrypt ∧ s.log.head? = some (.draw c)
  | some (.read k) => readFits s k
  | some (.readDone k a) => readFits s k ∧ s.log.head? = some (.read a)
  | some (.offer v k) => writeFits s v k
  | some (.write v k) => writeFits s v k
  | some (.written v k a) => writeFits s v k ∧ s.log.head? = some (.write v a)

/-- The bytes that the sink has accepted and the operation in progress has not yet counted or chained. -/
def acceptedBytes (s : State) : List Byte :=
  match s.pending with
  | some (.written v _ .ok) => v
  | some (.written _ _ (.short _)) => []
  | some (.written _ _ .err) => []
  | some .draw => []
  | some (.drawn _) => []
  | some (.read _) => []
  | some (.readDone _ _) => []
  | some (.offer _ _) => []
  | some (.write _ _) => []
  | none => []

/-- A full chunk has been read and the operation in progress has not yet put it into `PREV`: of the decrypt direction. -/
def chunkInHand (s : State) : Prop :=
  match s.pending with
  | some (.readDone _ (.data c)) => c.len = Config.blockSize
  | some (.readDone _ .err) => False
  | some (.offer _ k) => k = .decFull
  | some (.write _ k) => k = .decFull
  | some (.written _ k _) => k = .decFull
  | some .draw => False
  | some (.drawn _) => False
  | some (.read _) => False
  | none => False

/-- The chain state (42_chaining_engine.md R146): in the encrypt direction `PREV` is the last 8 bytes the sink accepted (until the operation
whose write has just been accepted has finished); in the decrypt direction it is the last full chunk the input delivered (until the
`CE.DEC.FULL` that holds a newer one has finished). -/
def chainFits (s : State) : Prop :=
  s.phase = .stream →
    match s.dir with
    | .encrypt => acceptedBytes s = [] → ∃ before, runOut s.log = before ++ s.prev.toList
    | .decrypt => ¬ chunkInHand s → lastFullRead s.log = some s.prev

/-- The count (10_state.md R30; 43_stream_framer.md R166): payload bytes, so the output less the IV block when encrypting and all of the
output when decrypting, modulo 2^64; bytes just accepted are counted when their operation finishes. -/
def countFits (s : State) : Prop :=
  match s.phase with
  | .idle => s.count = 0
  | .seed => s.count = 0 ∧ runOut s.log = acceptedBytes s
  | .stream =>
    match s.dir with
    | .encrypt => BitVec.ofNat 64 (runOut s.log).length = addCount (s.count + 8) (acceptedBytes s).length
    | .decrypt => BitVec.ofNat 64 (runOut s.log).length = addCount s.count (acceptedBytes s).length
  | .done =>
    match s.dir with
    | .encrypt => BitVec.ofNat 64 (runOut s.log).length = s.count + 8
    | .decrypt => BitVec.ofNat 64 (runOut s.log).length = s.count
  | .fail =>
    match s.cause with
    | .none => False
    | .keyLengthError => s.count = 0 ∧ runOut s.log = []
    | .entropySourceError => runOut s.log = []
    | .ioError => True

/-- What holds in every state a run reaches and every step keeps. -/
structure RunInv (s : State) : Prop where
  no_select : noSelect s.sched
  /-- busy only with a key of 64 bytes: `KS.CHECK` has passed, and `KS.LOAD` is refused since (41_key_schedule.md R131, R134) -/
  key_loaded : s.phase.busy = true → s.keylen = 64
  /-- "`CAUSE` is meaningful only when `PHASE = FAIL`; it is 0 in every other phase" (10_state.md R31) -/
  cause_only_in_fail : s.cause = .none ↔ s.phase ≠ .fail
  /-- a decrypt operation never draws entropy, so `STATUS = 0x34` is never read (95_test_vectors.md V13) -/
  entropy_encrypt_only : s.cause = .entropySourceError → s.dir = .encrypt
  /-- `IDLE` is left by `START` and entered by reset only (43_stream_framer.md R169) -/
  idle_as_reset : s.phase = .idle → s.dir = .encrypt
  pending_fits : pendingFits s
  chain_fits : chainFits s
  count_fits : countFits s

/-! ### The moves of `PHASE` -/

/-- The transition table of `PHASE` (43_stream_framer.md R169), for a step from `s` to `t`, row by row. -/
def phaseMove (s t : State) : Prop :=
  t.phase = s.phase ∨
  ((∃ q, s.sched = .reset :: q) ∧ t.phase = .idle) ∨
  ((∃ d q, s.sched = .start d :: q) ∧ s.phase.busy = false ∧ s.keylen = 64 ∧ t.phase = .seed) ∨
  ((∃ d q, s.sched = .start d :: q) ∧ s.phase.busy = false ∧ s.keylen ≠ 64 ∧ t.phase = .fail ∧ t.cause = .keyLengthError) ∨
  (s.phase = .seed ∧ t.phase = .stream) ∨
  (s.phase = .seed ∧ s.dir = .encrypt ∧ t.phase = .fail ∧ t.cause = .entropySourceError) ∨
  (s.phase.busy = true ∧ t.phase = .fail ∧ t.cause = .ioError) ∨
  (s.phase = .stream ∧ t.phase = .done)

/-! ### Whole runs -/

/-- `n` steps of the machine. -/
def runSteps (n : Nat) (s : State) : Result := Host.Core.run Sys2Proof.core n s

/-- How many moves the core makes for a payload of `L` bytes when every port answers at once: four for each chunk (read, compute, write,
finish), two for the empty read that ends the stream (read, `SF.END`).  The number is a consequence of R7's grain, not of a clock. -/
def payloadMoves (L : Nat) : Nat := 4 * (L / 8) + if L % 8 = 0 then 2 else 4

/-- The steps of an encrypt run: `START`, the four moves of `CE.IVGEN`, the payload. -/
def encryptSteps (L : Nat) : Nat := 5 + payloadMoves L

/-- The steps of a decrypt run: `START`, the read of the IV block and `CE.IVLOAD`, the payload. -/
def decryptSteps (L : Nat) : Nat := 3 + payloadMoves L

/-- A block as the full chunk that carries it. -/
def chunkOfBlock (b : Block) : Chunk := ⟨b.toList, by simp⟩

/-- `S[8c .. 8c+7]`, or what is left of it: the answer of `WB(S)` to call number `c` (20_memory.md R55). -/
def chunkAt (S : List Byte) (c : Nat) : Chunk := ⟨(S.drop (8 * c)).take 8, by simp⟩

/-- The answers of the well-behaved source `WB(S)` up to the first that is not a full chunk: `floor(L/8)` full chunks, then the partial
chunk of `L mod 8` bytes, or the empty one when `L mod 8 = 0` (R55). -/
def wbAnswers (S : List Byte) : List (Option InAnswer) :=
  (List.range (S.length / 8 + 1)).map fun c => some (.data (chunkAt S c))

/-- How many writes the payload of `L` bytes takes (43_stream_framer.md R167). -/
def payloadWrites (L : Nat) : Nat := L / 8 + if L % 8 = 0 then 0 else 1

/-- `E_j = P_j ^ E_{j-1} ^ M` for the full chunks and `T[i] = P_T[i] ^ E_q[i] ^ M[i]` for the tail, given the mask `m` and the last block
emitted (42_chaining_engine.md R148). -/
def encPayload (m : Block) : Block → List Byte → List Byte
  | e, a0 :: a1 :: a2 :: a3 :: a4 :: a5 :: a6 :: a7 :: rest =>
    let e' := xorBlock (xorBlock #v[a0, a1, a2, a3, a4, a5, a6, a7] e) m
    e'.toList ++ encPayload m e' rest
  | e, tail => firstBytes tail.length (xorBlock (xorBlock (pad8 tail) e) m)

/-- `D_j = C_j ^ M ^ C_{j-1}` for the full chunks and `U[i] = C_T[i] ^ C_q[i]` for the tail, given the mask `m` and the last ciphertext
block (42_chaining_engine.md R148). -/
def decPayload (m : Block) : Block → List Byte → List Byte
  | c, a0 :: a1 :: a2 :: a3 :: a4 :: a5 :: a6 :: a7 :: rest =>
    let c' : Block := #v[a0, a1, a2, a3, a4, a5, a6, a7]
    (xorBlock (xorBlock c' m) c).toList ++ decPayload m c' rest
  | c, tail => firstBytes tail.length (xorBlock (pad8 tail) c)

/-- The ciphertext stream of format W: `E_0 = IV ^ M`, then the payload (R148; 20_memory.md R58). -/
def encStream (key : Key) (iv : Block) (P : List Byte) : List Byte :=
  (xorBlock iv (keyMask key)).toList ++ encPayload (keyMask key) (xorBlock iv (keyMask key)) P

/-- The plaintext that the decrypt direction gives for a stream of 8 bytes or more: the first block seeds the chain (R148). -/
def decStream (key : Key) (C : List Byte) : List Byte :=
  decPayload (keyMask key) (pad8 (C.take 8)) (C.drop 8)

/-- The host is about to issue `START 0` on a core that is not busy and holds a 64-byte key, with the input source `WB(P)`, an entropy
source that answers `Rand(8, iv)` and a sink that answers `Ok` to every write of the run (30_encoding.md R95, `Encrypt(P, K, IV)`). -/
structure EncryptReady (s : State) (P : List Byte) (iv : Block) : Prop where
  not_busy : s.phase.busy = false
  not_waiting : s.pending = none
  key_loaded : s.keylen = 64
  schedule : s.sched = [.start .encrypt]
  entropy : ∃ q, s.rngQ = some (chunkOfBlock iv) :: q
  source : ∃ q, s.inQ = wbAnswers P ++ q
  sink : ∃ q, s.outQ = List.replicate (1 + payloadWrites P.length) (some .ok) ++ q

/-- The same for `START 1` and a ciphertext stream `C` (30_encoding.md R95, `Decrypt(C, K)`). -/
structure DecryptReady (s : State) (C : List Byte) : Prop where
  not_busy : s.phase.busy = false
  not_waiting : s.pending = none
  key_loaded : s.keylen = 64
  schedule : s.sched = [.start .decrypt]
  source : ∃ q, s.inQ = wbAnswers C ++ q
  sink : ∃ q, s.outQ = List.replicate (payloadWrites (C.length - 8)) (some .ok) ++ q

end Sys2Proof.Machine
end

