-- ==== Sys2Proof/Certificates/Slice0/Obligations.lean ====
section
/-!
DEFINITION. The statements for the provers.  Each formalises a numbered rule of spec/ or is derived from the sections its entry of
OBLIGATIONS.json cites.  A statement that gives a next state as `sameButHidden t { s with … }` says the whole frame: everything but the
hidden round state (10_state.md R29), and beyond the fields named, is as before.
-/

open Sys2Proof Sys2Proof.Machine

/-! ### Encoding -/

/-- Decoding the descriptor of a well-formed operation gives it back, for every operation and every operand. -/
def Obligations.DecodeOfEncodeIsIdentity : Prop :=
  ∀ i : Instr, i.wf = true → decode (encode i) = .ok i

/-- The decoder yields well-formed operations only, each from the one descriptor `encode` gives; `CE.IVGEN` alone has sixteen
(`01xxxx`, the four `LEN` bits are not examined, R90; notes/assumptions/22.md), and every one of the sixteen decodes to it. -/
def Obligations.DecodedIsWellFormedAndCanonical : Prop :=
  (∀ (bs : List Byte) (i : Instr), decode bs = .ok i →
    i.wf = true ∧ (i ≠ .ceIvgen → bs = encode i) ∧ (i = .ceIvgen → ∃ n, n < 16 ∧ bs = [selByte .encrypt true n])) ∧
  ∀ n, n < 16 → decode [selByte .encrypt true n] = .ok .ceIvgen

/-- R90(a), R91: every `SEL` with `LEN` in 0..8 matches exactly one row of the operation map; with `LEN` in 9..15 only the row of
`CE.IVGEN` can match; and `01xxxx` selects `CE.IVGEN` whatever its `LEN` bits are. -/
def Obligations.SelectorMapIsUnambiguous : Prop :=
  ∀ sel : BitVec 6,
    (selLen sel ≤ 8 → (selTable.filter (·.hits sel)).length = 1) ∧
    (8 < selLen sel → selectSel sel = none ∨ selectSel sel = some .ivgen) ∧
    (selectSel sel = some .ivgen ↔ sel.extractLsb' 4 2 = 0b01)

/-- Words written out from the tables of 30_encoding.md R84, R85, R90 decode to the operation they stand for. -/
def Obligations.SpecWordsDecode : Prop :=
  decode [0b00010000] = .ok .ceIvgen ∧
  decode [0b00001000, 0x30, 0x31, 0x32, 0x33, 0x34, 0x35, 0x36, 0x37] =
    .ok (.ceEncFull #v[0x30, 0x31, 0x32, 0x33, 0x34, 0x35, 0x36, 0x37]) ∧
  decode [0b00000010, 0x38, 0x39] = .ok (.ceEncTail [0x38, 0x39]) ∧
  decode [0b00110101, 0x95, 0xF8, 0xD3, 0x84, 0x2F] = .ok (.sfFault (.shortFirstRead [0x95, 0xF8, 0xD3, 0x84, 0x2F])) ∧
  decode [0b00100000] = .ok (.sfEnd .decrypt) ∧
  decode [0b01001111] = .ok (.frE 15) ∧
  decode [0b01010000] = .ok (.frD 0) ∧
  decode [0b01100101] = .ok (.start .decrypt)

/-! ### What a step runs -/

/-- A step performs the operation that its selected descriptor decodes to; and so does the step after `withFetchWord`. -/
def Obligations.StepRunsDecodedOperation : Prop :=
  (∀ (s : State) (bs : List Byte) (q : List Slot) (i : Instr), s.sched = .select bs :: q → decode bs = .ok i →
    step s = exec i { s with sched := q }) ∧
  (∀ (s : State) (nbits w : Nat) (i : Instr), decodeTableWord nbits w = some i → step (s.withFetchWord nbits w) = exec i s)

/-- What a step performs on its own: a host action is that operation; while the core is not busy its move changes nothing (R196).  While it is
busy, the core's moves from one operation to the next are the row of `SF.STEP` that `SEL[4]` selects (R160, R163, R164): one to four moves
with nothing between them, each a step of R7, give what the operation gives as a whole, as far as the ports answer. -/
def Obligations.StepRunsHostActionsAndTheSequencer : Prop :=
  ∀ (s : State) (q : List Slot),
    (∀ key, s.sched = .load key :: q → step s = exec (.ksLoad key) { s with sched := q }) ∧
    (∀ d, s.sched = .start d :: q → step s = exec (.start d) { s with sched := q }) ∧
    (s.sched = .sr :: q → step s = exec .sr { s with sched := q }) ∧
    (s.sched = .core :: q ∨ (s.sched = [] ∧ q = []) → s.pending = none → s.phase.busy = false → step s = .next { s with sched := q }) ∧
    (∀ i : Instr, (s.phase = .seed ∧ i = .sfStepSeed) ∨ (s.phase = .stream ∧ i = .sfStepStream) → s.pending = none →
      (∃ n, 1 ≤ n ∧ n ≤ 4 ∧ runSteps n { s with sched := List.replicate n .core ++ q } = exec i { s with sched := q }) ∧
      (∃ n, 1 ≤ n ∧ n ≤ 4 ∧ runSteps n { s with sched := [] } = exec i { s with sched := [] }))

/-- The selection of the chaining operation (R85, R90(a)).  Once the read of an `SF.STEP` is answered with `Data(n, b)`, `SF.STEP` answers
the next state of the operation that the decoder reads from `SEL = {DIR, SEED, n}` with the chunk as operand, performed after the read. -/
def Obligations.SfStepPerformsTheSelectedOperation : Prop :=
  ∀ (s : State) (c : Chunk) (q : List (Option InAnswer)), s.inQ = some (.data c) :: q →
    (∃ i t, decode (selByte s.dir false c.len :: c.bytes) = .ok i ∧ exec .sfStepStream s = .next t ∧
      exec i { s with inQ := q, pending := none, log := .read (.data c) :: s.log } = .next t) ∧
    (s.dir = .decrypt →
      ∃ i t, decode (selByte .decrypt true c.len :: c.bytes) = .ok i ∧ exec .sfStepSeed s = .next t ∧
        exec i { s with inQ := q, pending := none, log := .read (.data c) :: s.log } = .next t)

/-- Every operation completes: a well-formed operation answers a next state in every state, whatever the ports answer.  A term that is no
operation of the core (an operand outside its rule's bounds) is refused by name. -/
def Obligations.EveryOperationAnswersANextState : Prop :=
  ∀ (i : Instr) (s : State),
    (i.wf = true → ∃ t, exec i s = .next t) ∧ (i.wf = false → ∃ m, exec i s = .refused (.illFormed m))

/-- A step stops only at a `select` slot whose bytes are no descriptor; the spec's own agents never stop the machine. -/
def Obligations.StepNeverStopsInARun : Prop :=
  ∀ s : State, headNotSelect s → ∃ t, step s = .next t

/-! ### Block transform -/

/-- R110.  That the value is put into the model's field `ret` is the model's choice (notes/assumptions/11.md). -/
def Obligations.RfReturnsTheKeyByte : Prop :=
  ∀ (x kb : Byte) (s : State), exec (.rf x kb) s = .next { s with ret := .byte kb }

/-- R111: one encrypt round.  That `ROUND` stays as it was, whatever `r` is, is DEDUCED from 10_state.md R20 (notes/assumptions/12.md). -/
def Obligations.FrESwapsHalvesAndMixesTheRoundKey : Prop :=
  ∀ (r : RoundIndex) (s : State), ∃ t, exec (.frE r) s = .next t ∧ sameButHidden t { s with blk := t.blk } ∧ t.round = s.round ∧
    ∀ (i : Nat) (hi : i < 4),
      t.blk[i] = s.blk[4 + i] ∧
      t.blk[4 + i] = s.blk[i] ^^^ s.key[4 * r.toNat + i]'(by have := r.isLt; omega)

/-- R113: one decrypt round.  That `ROUND` stays as it was, whatever `r` is, is DEDUCED from 10_state.md R20 (notes/assumptions/12.md). -/
def Obligations.FrDSwapsHalvesAndUnmixesTheRoundKey : Prop :=
  ∀ (r : RoundIndex) (s : State), ∃ t, exec (.frD r) s = .next t ∧ sameButHidden t { s with blk := t.blk } ∧ t.round = s.round ∧
    t.cursor = 4 * r.toNat ∧
    ∀ (i : Nat) (hi : i < 4),
      t.blk[i] = s.blk[4 + i] ^^^ s.key[4 * r.toNat + i]'(by have := r.isLt; omega) ∧
      t.blk[4 + i] = s.blk[i]

/-- R113, corner case: `FR.D` with round index `r` undoes `FR.E` with the same `r`. -/
def Obligations.FrDUndoesFrE : Prop :=
  ∀ (r : RoundIndex) (s : State), ∃ t u, exec (.frE r) s = .next t ∧ exec (.frD r) t = .next u ∧ sameButHidden u s

/-- R112, R114: the block transforms are the round sequences `RS = 0 0000 … 0 1111` and `RS = 1 1111 … 1 0000`: there are states
`σ 0 = s, σ 1, …, σ 16`, each the answer of the round that its selector selects, with `ROUND` set to its index. -/
def Obligations.BlockTransformsAreTheirRoundSequences : Prop :=
  ∀ s : State,
    (∃ σ : Nat → State, σ 0 = s ∧ exec .btEnc s = .next (σ 16) ∧
      ∀ n, n < 16 → exec (decodeRs (BitVec.ofNat 5 n)) { σ n with round := BitVec.ofNat 4 n } = .next (σ (n + 1))) ∧
    (∃ σ : Nat → State, σ 0 = s ∧ exec .btDec s = .next (σ 16) ∧
      ∀ n, n < 16 → exec (decodeRs (BitVec.ofNat 5 (31 - n))) { σ n with round := BitVec.ofNat 4 (15 - n) } = .next (σ (n + 1)))

/-- R117: `BT.ENC` maps `BLK` to `BLK ^ M(KEY)`. -/
def Obligations.BtEncIsXorWithTheMask : Prop :=
  ∀ s : State, ∃ t, exec .btEnc s = .next t ∧ sameButHidden t { s with blk := xorBlock s.blk (keyMask s.key) }

/-- R118: `BT.DEC` maps `BLK` to `BLK ^ M(KEY)` as well; so the two are the same function of the block and each is its own inverse. -/
def Obligations.BtDecIsTheSameFunction : Prop :=
  ∀ s : State, ∃ t, exec .btDec s = .next t ∧ sameButHidden t { s with blk := xorBlock s.blk (keyMask s.key) } ∧
    (∃ u, exec .btEnc s = .next u ∧ u.blk = t.blk) ∧
    (∃ u, exec .btDec t = .next u ∧ u.blk = s.blk) ∧
    (∃ u v, exec .btEnc s = .next u ∧ exec .btEnc u = .next v ∧ v.blk = s.blk)

/-- R115: the block round trip, in both orders. -/
def Obligations.BlockRoundTrip : Prop :=
  ∀ s : State,
    (∃ t u, exec .btEnc s = .next t ∧ exec .btDec t = .next u ∧ sameButHidden u s) ∧
    (∃ t u, exec .btDec s = .next t ∧ exec .btEnc t = .next u ∧ sameButHidden u s)

/-- R116: the four lane steps of a round may be taken in any order, and a byte of lane `i` of the transformed block depends only on lane
`i` of the block and on the key bytes `4r + i`. -/
def Obligations.LanesAreIndependent : Prop :=
  (∀ (r : RoundIndex) (s t : State) (order : List (Fin 4)), order.Perm [0, 1, 2, 3] →
    (exec (.frE r) s = .next t → (order.foldl (fun u i => laneE r i u) s).blk = t.blk) ∧
    (exec (.frD r) s = .next t → (order.foldl (fun u i => laneD r i u) { s with cursor := cursorOf r }).blk = t.blk)) ∧
  (∀ (s s' : State) (i : Nat) (hi : i < 4),
    s.blk[i] = s'.blk[i] → s.blk[4 + i] = s'.blk[4 + i] →
    (∀ (r : Nat) (hr : r < 16), s.key[4 * r + i] = s'.key[4 * r + i]) →
    ∀ op : Instr, op = .btEnc ∨ op = .btDec →
      ∃ t t', exec op s = .next t ∧ exec op s' = .next t' ∧ t.blk[i] = t'.blk[i] ∧ t.blk[4 + i] = t'.blk[4 + i])

/-! ### Key schedule -/

/-- R130: `KS.LOAD` when the core is not busy. -/
def Obligations.KsLoadStoresTheKey : Prop :=
  ∀ (key : List Byte) (s : State), s.phase.busy = false →
    ∃ K : Key, exec (.ksLoad key) s = .next { s with keylen := key.length, key := K } ∧
      ∀ (j : Nat) (hj : j < 64), (∀ h : j < key.length, K[j] = key[j]) ∧ (key.length ≤ j → K[j] = s.key[j])

/-- R130, R134, R160: `KS.LOAD` and `START` while the core is busy are refused: no state changes. -/
def Obligations.HostCommandsAreRefusedWhileBusy : Prop :=
  ∀ (s : State), s.phase.busy = true →
    (∀ key, exec (.ksLoad key) s = .next s) ∧ (∀ d, exec (.start d) s = .next s)

/-- R25, R134: no operation but `KS.LOAD` writes `KEY` or `KEYLEN`, and in a step only an accepted `KS.LOAD` or a reset does. -/
def Obligations.KeyIsWrittenOnlyByLoadAndReset : Prop :=
  (∀ (i : Instr) (s t : State), exec i s = .next t → (∀ key, i ≠ .ksLoad key) → t.key = s.key ∧ t.keylen = s.keylen) ∧
  (∀ (s t : State), step s = .next t → headNotSelect s →
    (t.key = s.key ∧ t.keylen = s.keylen) ∨
    (s.phase.busy = false ∧ ∃ key q, s.sched = .load key :: q) ∨
    (∃ q, s.sched = .reset :: q))

/-- R131: `KS.CHECK` passes exactly a key of 64 bytes; any other length raises `KeyLengthError`. -/
def Obligations.KsCheckPassesExactly64Bytes : Prop :=
  ∀ s : State,
    (s.keylen = 64 → exec .ksCheck s = .next s) ∧
    (s.keylen ≠ 64 → exec .ksCheck s = .next { s with cause := .keyLengthError, phase := .fail, pending := none })

/-- R132: `KS.VIEW(r)` returns `KEY[4r .. 4r+3]`; the sixteen views are disjoint and cover the key.  That the value is put into the model's
field `ret` is the model's choice (notes/assumptions/11.md). -/
def Obligations.KsViewReturnsTheRoundKey : Prop :=
  (∀ (r : RoundIndex) (s : State), ∃ v : Vector Byte 4, exec (.ksView r) s = .next { s with ret := .roundKey v } ∧
    ∀ (i : Nat) (hi : i < 4), v[i] = s.key[4 * r.toNat + i]'(by have := r.isLt; omega)) ∧
  (∀ j : Fin 64, ∃ (r : RoundIndex) (i : Fin 4), keyIndex r i = j ∧
    ∀ (r' : RoundIndex) (i' : Fin 4), keyIndex r' i' = j → r' = r ∧ i' = i)

/-! ### Chaining engine -/

/-- R140: `CE.IVGEN` with a full draw and an answered write.  `Ok`: the chain is seeded with the block emitted.  `Short(m)` or `Err`:
`IOError`, and `PREV` is not written. -/
def Obligations.CeIvgenEmitsTheTransformedIv : Prop :=
  ∀ (s : State) (iv : Block) (a : OutAnswer) (rq : List (Option Chunk)) (oq : List (Option OutAnswer)),
    s.rngQ = some (chunkOfBlock iv) :: rq → s.outQ = some a :: oq →
    ∃ t, exec .ceIvgen s = .next t ∧
      (a = .ok → sameButHidden t
        { s with
          blk := xorBlock iv (keyMask s.key), prev := xorBlock iv (keyMask s.key), phase := .stream, rngQ := rq, outQ := oq, pending := none
          log := .write (xorBlock iv (keyMask s.key)).toList .ok :: .draw (chunkOfBlock iv) :: s.log }) ∧
      (a ≠ .ok → sameButHidden t
        { s with
          blk := xorBlock iv (keyMask s.key), phase := .fail, cause := .ioError, rngQ := rq, outQ := oq, pending := none
          log := .write (xorBlock iv (keyMask s.key)).toList a :: .draw (chunkOfBlock iv) :: s.log })

/-- R140, R182: a draw of fewer than 8 bytes raises `EntropySourceError` before anything is written. -/
def Obligations.ShortDrawRaisesEntropySourceError : Prop :=
  ∀ (s : State) (c : Chunk) (rq : List (Option Chunk)), s.rngQ = some c :: rq → c.len < 8 →
    exec .ceIvgen s =
      .next { s with cause := .entropySourceError, phase := .fail, pending := none, rngQ := rq, log := .draw c :: s.log }

/-- R141: `CE.ENC.FULL` with an answered write.  `Ok`: the block is emitted, it is the new `PREV`, and 8 bytes are counted.  `Short(m)` or
`Err`: `IOError`, `PREV` and `COUNT` as before. -/
def Obligations.CeEncFullChainsAndEmits : Prop :=
  ∀ (s : State) (b : Block) (a : OutAnswer) (oq : List (Option OutAnswer)), s.outQ = some a :: oq →
    ∃ t, exec (.ceEncFull b) s = .next t ∧
      (a = .ok → sameButHidden t
        { s with
          blk := xorBlock (xorBlock b s.prev) (keyMask s.key), prev := xorBlock (xorBlock b s.prev) (keyMask s.key)
          count := s.count + 8, outQ := oq, pending := none
          log := .write (xorBlock (xorBlock b s.prev) (keyMask s.key)).toList .ok :: s.log }) ∧
      (a ≠ .ok → sameButHidden t
        { s with
          blk := xorBlock (xorBlock b s.prev) (keyMask s.key), phase := .fail, cause := .ioError, outQ := oq, pending := none
          log := .write (xorBlock (xorBlock b s.prev) (keyMask s.key)).toList a :: s.log })

/-- R142: `CE.ENC.TAIL` with an accepted write; emitted byte `j` is `b[j] ^ PREV[j] ^ M[j]`. -/
def Obligations.CeEncTailEmitsTheUnpaddedBytes : Prop :=
  ∀ (s : State) (b : List Byte) (oq : List (Option OutAnswer)), 1 ≤ b.length → b.length ≤ 7 → s.outQ = some .ok :: oq →
    ∃ (t : State) (v : List Byte), exec (.ceEncTail b) s = .next t ∧
      sameButHidden t
        { s with
          blk := xorBlock (xorBlock (pad8 b) s.prev) (keyMask s.key), count := s.count + BitVec.ofNat 64 b.length, phase := .done
          outQ := oq, pending := none, log := .write v .ok :: s.log } ∧
      v.length = b.length ∧
      ∀ (j : Nat) (hj : j < b.length) (hv : j < v.length) (h8 : j < 8), v[j] = b[j] ^^^ s.prev[j] ^^^ (keyMask s.key)[j]

/-- R143: `CE.IVLOAD` seeds the chain and does nothing else. -/
def Obligations.CeIvloadSeedsTheChain : Prop :=
  ∀ (s : State) (b : Block), exec (.ceIvload b) s = .next { s with prev := b, phase := .stream }

/-- R144: `CE.DEC.FULL` with an answered write.  `Ok`: the plaintext is emitted, the chunk as read is the new `PREV`, and 8 bytes are
counted.  `Short(m)` or `Err`: `IOError`, `PREV` and `COUNT` as before. -/
def Obligations.CeDecFullUnchainsAndEmits : Prop :=
  ∀ (s : State) (b : Block) (a : OutAnswer) (oq : List (Option OutAnswer)), s.outQ = some a :: oq →
    ∃ t, exec (.ceDecFull b) s = .next t ∧
      (a = .ok → sameButHidden t
        { s with
          ct := b, blk := xorBlock (xorBlock b (keyMask s.key)) s.prev, prev := b, count := s.count + 8, outQ := oq, pending := none
          log := .write (xorBlock (xorBlock b (keyMask s.key)) s.prev).toList .ok :: s.log }) ∧
      (a ≠ .ok → sameButHidden t
        { s with
          ct := b, blk := xorBlock (xorBlock b (keyMask s.key)) s.prev, phase := .fail, cause := .ioError, outQ := oq, pending := none
          log := .write (xorBlock (xorBlock b (keyMask s.key)) s.prev).toList a :: s.log })

/-- R145: `CE.DEC.TAIL` with an accepted write; emitted byte `j` is `b[j] ^ PREV[j]`, and no block transform runs: the hidden round
state does not move. -/
def Obligations.CeDecTailXorsOnly : Prop :=
  ∀ (s : State) (b : List Byte) (oq : List (Option OutAnswer)), 1 ≤ b.length → b.length ≤ 7 → s.outQ = some .ok :: oq →
    ∃ v : List Byte,
      exec (.ceDecTail b) s =
        .next
          { s with
            blk := xorBlock (pad8 b) s.prev, count := s.count + BitVec.ofNat 64 b.length, phase := .done
            outQ := oq, pending := none, log := .write v .ok :: s.log } ∧
      v.length = b.length ∧
      ∀ (j : Nat) (hj : j < b.length) (hv : j < v.length) (h8 : j < 8), v[j] = b[j] ^^^ s.prev[j]

/-- R145: the decrypt tail "does not depend on the key at all": with any other key the operation does the same, whatever the sink
answers. -/
def Obligations.CeDecTailIgnoresTheKey : Prop :=
  ∀ (s t : State) (b : List Byte) (K : Key), exec (.ceDecTail b) s = .next t →
    exec (.ceDecTail b) { s with key := K } = .next { t with key := K }

/-- R52, R162, R183, R187, R190: when the write of a data operation is answered `Short(m)` or `Err`, the operation aborts: `IOError`, `PREV`
and `COUNT` as before, the answer consumed, the failed write in the history.  `BLK`, `CT` and the bytes offered are those of the same
operation with an accepted write (`u`, which the rules of the operation give). -/
def Obligations.FailedWriteAborts : Prop :=
  ∀ (s : State) (a : OutAnswer) (oq : List (Option OutAnswer)), a ≠ .ok → s.outQ = some a :: oq →
    ∀ i : Instr, (∃ b, i = .ceEncFull b) ∨ (∃ b, i = .ceEncTail b) ∨ (∃ b, i = .ceDecFull b) ∨ (∃ b, i = .ceDecTail b) →
      i.wf = true →
      ∃ (t u : State) (v : List Byte), exec i s = .next t ∧ exec i { s with outQ := some .ok :: oq } = .next u ∧
        u.log = .write v .ok :: s.log ∧
        sameButHidden t
          { s with
            blk := u.blk, ct := u.ct, cause := .ioError, phase := .fail, pending := none, outQ := oq, log := .write v a :: s.log }

/-- R65: while the port that the core waits for is silent, a move of the core leaves everything of the core as it was; only the port's
silent step has passed. -/
def Obligations.SilentPortHoldsTheCore : Prop :=
  ∀ (s : State) (p : Pending), RunInv s → s.sched = [] → s.pending = some p →
    (p = .draw → s.rngQ.head? = none ∨ s.rngQ.head? = some none → step s = .next { s with rngQ := s.rngQ.tail }) ∧
    (∀ k, p = .read k → s.inQ.head? = none ∨ s.inQ.head? = some none → step s = .next { s with inQ := s.inQ.tail }) ∧
    (∀ v k, p = .write v k → s.outQ.head? = none ∨ s.outQ.head? = some none → step s = .next { s with outQ := s.outQ.tail })

/-- A transaction that had to wait completes its operation as it would have at once (R65, R60): whatever the later answer is, the core's moves
after one silent step of the port reach the state that an immediate answer would have given.  A write, with any answer, of the four data
operations and of `SF.WRITE`; the write of `CE.IVGEN`; its draw, of any length; and a read, with any answer, of `SF.READ` and of both rows
of `SF.STEP`.  Silence as an entry of a list (notes/assumptions/3.md) and the waiting transaction as a field (notes/assumptions/8.md) are the
model's. -/
def Obligations.DelayedTransactionCompletesTheOperation : Prop :=
  (∀ (s : State) (i : Instr) (a : OutAnswer) (oq : List (Option OutAnswer)), s.sched = [] → i.wf = true →
    (∃ b, i = .ceEncFull b) ∨ (∃ b, i = .ceEncTail b) ∨ (∃ b, i = .ceDecFull b) ∨ (∃ b, i = .ceDecTail b) ∨ (∃ v, i = .sfWrite v) →
    ∃ (t w : State) (v : List Byte) (k : After),
      exec i { s with outQ := some a :: oq } = .next t ∧ exec i { s with outQ := none :: some a :: oq } = .next w ∧
      w.pending = some (.write v k) ∧ runSteps 2 w = .next t) ∧
  (∀ (s : State) (iv : Block) (a : OutAnswer) (rq : List (Option Chunk)) (oq : List (Option OutAnswer)), s.sched = [] →
    s.rngQ = some (chunkOfBlock iv) :: rq →
    ∃ (t w : State) (v : List Byte),
      exec .ceIvgen { s with outQ := some a :: oq } = .next t ∧ exec .ceIvgen { s with outQ := none :: some a :: oq } = .next w ∧
      w.pending = some (.write v .ivgen) ∧ runSteps 2 w = .next t) ∧
  (∀ (s : State) (c : Chunk) (rq : List (Option Chunk)), s.sched = [] →
    ∃ (t w : State) (n : Nat),
      exec .ceIvgen { s with rngQ := some c :: rq } = .next t ∧ exec .ceIvgen { s with rngQ := none :: some c :: rq } = .next w ∧
      w.pending = some .draw ∧ n ≤ 4 ∧ runSteps n w = .next t) ∧
  (∀ (s : State) (i : Instr) (a : InAnswer) (q : List (Option InAnswer)), s.sched = [] →
    i = .sfRead ∨ i = .sfStepStream ∨ (i = .sfStepSeed ∧ s.dir = .decrypt) →
    ∃ (t w : State) (k : Reader) (n : Nat),
      exec i { s with inQ := some a :: q } = .next t ∧ exec i { s with inQ := none :: some a :: q } = .next w ∧
      w.pending = some (.read k) ∧ n ≤ 4 ∧ runSteps n w = .next t)

/-! ### Stream framer -/

/-- R160: `START d` on a core that is not busy and holds a 64-byte key. -/
def Obligations.StartBeginsAnOperation : Prop :=
  ∀ (d : Dir) (s : State), s.phase.busy = false → s.keylen = 64 →
    exec (.start d) s = .next { s with dir := d, count := 0, cause := .none, phase := .seed, log := .started d :: s.log }

/-- R131, R160, R181: `START d` with a key of another length fails in both directions, with no port transaction.  That a waiting transaction
is dropped (in a run none waits) is DEDUCED (notes/assumptions/18.md), the mark in the history is the model's (notes/assumptions/20.md). -/
def Obligations.StartRejectsABadKeyLength : Prop :=
  ∀ (d : Dir) (s : State), s.phase.busy = false → s.keylen ≠ 64 →
    exec (.start d) s =
      .next { s with dir := d, count := 0, cause := .keyLengthError, phase := .fail, pending := none, log := .started d :: s.log }

/-- R161: the three answers to `SF.READ`, and a silent port.  The field `ret` (notes/assumptions/11.md), silence as an entry or the end of a
list (notes/assumptions/3.md) and the waiting transaction as a field (notes/assumptions/8.md) are the model's. -/
def Obligations.SfReadReturnsTheChunk : Prop :=
  ∀ (s : State) (q : List (Option InAnswer)),
    (∀ c, s.inQ = some (.data c) :: q →
      exec .sfRead s = .next { s with inQ := q, pending := none, ret := .chunk c, log := .read (.data c) :: s.log }) ∧
    (s.inQ = some .err :: q →
      exec .sfRead s = .next { s with inQ := q, pending := none, cause := .ioError, phase := .fail, log := .read .err :: s.log }) ∧
    (s.inQ = none :: q → exec .sfRead s = .next { s with inQ := q, pending := some (.read .bare) }) ∧
    (s.inQ = [] → exec .sfRead s = .next { s with pending := some (.read .bare) })

/-- R162: the answers to `SF.WRITE(n, v)`, and a silent port.  Silence as an entry or the end of a list (notes/assumptions/3.md), the waiting
transaction as a field (notes/assumptions/8.md) and `Short(m)` with `m` at least `n` (notes/assumptions/10.md) are the model's. -/
def Obligations.SfWriteWritesAllOrFails : Prop :=
  ∀ (s : State) (v : List Byte) (q : List (Option OutAnswer)), 1 ≤ v.length → v.length ≤ 8 →
    (s.outQ = some .ok :: q → exec (.sfWrite v) s = .next { s with outQ := q, pending := none, log := .write v .ok :: s.log }) ∧
    (∀ a, a ≠ .ok → s.outQ = some a :: q →
      exec (.sfWrite v) s =
        .next { s with outQ := q, pending := none, cause := .ioError, phase := .fail, log := .write v a :: s.log }) ∧
    (s.outQ = none :: q → exec (.sfWrite v) s = .next { s with outQ := q, pending := some (.write v .bare) }) ∧
    (s.outQ = [] → exec (.sfWrite v) s = .next { s with pending := some (.write v .bare) })

/-- R163: the IV step.  Encrypt: `CE.IVGEN`, and no read of the input.  Decrypt: a full first chunk seeds the chain; a shorter one and
`Err` raise `IOError`. -/
def Obligations.SfStepSeedPerformsTheIvStep : Prop :=
  ∀ s : State,
    (s.dir = .encrypt → ∃ t, exec .sfStepSeed s = .next t ∧ exec .ceIvgen s = .next t ∧ t.inQ = s.inQ) ∧
    (s.dir = .decrypt → ∀ (q : List (Option InAnswer)),
      (∀ b : Block, s.inQ = some (.data (chunkOfBlock b)) :: q →
        exec .sfStepSeed s =
          .next { s with prev := b, phase := .stream, inQ := q, pending := none, log := .read (.data (chunkOfBlock b)) :: s.log }) ∧
      (∀ c : Chunk, c.len < 8 → s.inQ = some (.data c) :: q →
        exec .sfStepSeed s =
          .next { s with cause := .ioError, phase := .fail, inQ := q, pending := none, log := .read (.data c) :: s.log }) ∧
      (s.inQ = some .err :: q →
        exec .sfStepSeed s =
          .next { s with cause := .ioError, phase := .fail, inQ := q, pending := none, log := .read .err :: s.log }))

/-- R164: one iteration of the loop when the read and the write are answered: what `BLK`, `CT`, `PREV`, `COUNT`, `PHASE` and the output
become, by the direction and the length of the chunk.  The blocks are given in the closed forms of R117 and R118, the spec's own
inferences. -/
def Obligations.SfStepStreamPerformsOneIteration : Prop :=
  ∀ (s : State) (q : List (Option InAnswer)) (oq : List (Option OutAnswer)), s.outQ = some .ok :: oq →
    (∀ b : Block, s.inQ = some (.data (chunkOfBlock b)) :: q → s.dir = .encrypt →
      ∃ t, exec .sfStepStream s = .next t ∧
        sameButHidden t
          { s with
            blk := xorBlock (xorBlock b s.prev) (keyMask s.key), prev := xorBlock (xorBlock b s.prev) (keyMask s.key)
            count := s.count + 8, inQ := q, outQ := oq, pending := none
            log := .write (xorBlock (xorBlock b s.prev) (keyMask s.key)).toList .ok :: .read (.data (chunkOfBlock b)) :: s.log }) ∧
    (∀ b : Block, s.inQ = some (.data (chunkOfBlock b)) :: q → s.dir = .decrypt →
      ∃ t, exec .sfStepStream s = .next t ∧
        sameButHidden t
          { s with
            ct := b, blk := xorBlock (xorBlock b (keyMask s.key)) s.prev, prev := b
            count := s.count + 8, inQ := q, outQ := oq, pending := none
            log := .write (xorBlock (xorBlock b (keyMask s.key)) s.prev).toList .ok :: .read (.data (chunkOfBlock b)) :: s.log }) ∧
    (∀ c : Chunk, 1 ≤ c.len → c.len ≤ 7 → s.inQ = some (.data c) :: q →
      ∃ t v, exec .sfStepStream s = .next t ∧ v = firstBytes c.len t.blk ∧
        t.blk = (match s.dir with
          | .encrypt => xorBlock (xorBlock (pad8 c.bytes) s.prev) (keyMask s.key)
          | .decrypt => xorBlock (pad8 c.bytes) s.prev) ∧
        sameButHidden t
          { s with
            blk := t.blk, count := s.count + BitVec.ofNat 64 c.len, phase := .done, inQ := q, outQ := oq, pending := none
            log := .write v .ok :: .read (.data c) :: s.log }) ∧
    (∀ c : Chunk, c.len = 0 → s.inQ = some (.data c) :: q →
      exec .sfStepStream s = .next { s with phase := .done, inQ := q, pending := none, log := .read (.data c) :: s.log }) ∧
    (s.inQ = some .err :: q →
      exec .sfStepStream s =
        .next { s with cause := .ioError, phase := .fail, inQ := q, pending := none, log := .read .err :: s.log })

/-- R165. -/
def Obligations.SfEndEndsTheRunCleanly : Prop :=
  ∀ (d : Dir) (s : State), exec (.sfEnd d) s = .next { s with phase := .done }

/-- R171, R86: `SR` returns `STATUS = {00, DIR, CAUSE, PHASE}`, with the codes of R27, R28 and R31, and a count, and changes nothing of the
core.  In a state of a run the count is exact in `DONE`, and 0 in `IDLE` and after `KeyLengthError`. -/
def Obligations.SrReturnsStatusAndCount : Prop :=
  ∀ s : State, ∃ (st : BitVec 8) (c : BitVec 64) (k : Nat), exec .sr s = .next { s with ret := .status st c, freeCounter := k } ∧
    (s.phase = .idle → st.extractLsb' 0 3 = 0) ∧ (s.phase = .seed → st.extractLsb' 0 3 = 1) ∧
    (s.phase = .stream → st.extractLsb' 0 3 = 2) ∧ (s.phase = .done → st.extractLsb' 0 3 = 3) ∧
    (s.phase = .fail → st.extractLsb' 0 3 = 4) ∧
    (s.cause = .none → st.extractLsb' 3 2 = 0) ∧ (s.cause = .keyLengthError → st.extractLsb' 3 2 = 1) ∧
    (s.cause = .entropySourceError → st.extractLsb' 3 2 = 2) ∧ (s.cause = .ioError → st.extractLsb' 3 2 = 3) ∧
    (s.dir = .encrypt → st.extractLsb' 5 1 = 0) ∧ (s.dir = .decrypt → st.extractLsb' 5 1 = 1) ∧
    st.extractLsb' 6 2 = 0 ∧
    (s.phase = .done → c = s.count) ∧
    (RunInv s → s.phase = .idle → c = 0) ∧
    (RunInv s → s.phase = .fail → s.cause = .keyLengthError → c = 0)

/-- R33, D20: what `SR` returns does not depend on the key, the buffers or the hidden state. -/
def Obligations.SrRevealsNoKeyOrBuffer : Prop :=
  ∀ (s s' t t' : State), s.dir = s'.dir → s.phase = s'.phase → s.cause = s'.cause → s.count = s'.count →
    s.freeCounter = s'.freeCounter → exec .sr s = .next t → exec .sr s' = .next t' → t.ret = t'.ret

/-! ### Abort, reset, invariants -/

/-- R187, R180: `SF.FAULT`. -/
def Obligations.SfFaultRecordsTheCauseAndStops : Prop :=
  ∀ s : State,
    exec (.sfFault (.raised .keyLength)) s = .next { s with cause := .keyLengthError, phase := .fail, pending := none } ∧
    exec (.sfFault (.raised .entropySource)) s = .next { s with cause := .entropySourceError, phase := .fail, pending := none } ∧
    exec (.sfFault (.raised .io)) s = .next { s with cause := .ioError, phase := .fail, pending := none } ∧
    (∀ b : List Byte, b.length ≤ 7 →
      exec (.sfFault (.shortFirstRead b)) s = .next { s with cause := .ioError, phase := .fail, pending := none })

/-- R34, R210: the values reset gives; R211: reset in any state gives them, drops a waiting transaction and keeps what the environment
holds.  The history gains the mark of the reset and, exactly when a write waited for its answer, the bytes it had offered
(notes/assumptions/20.md and 24.md). -/
def Obligations.ResetGivesTheResetState : Prop :=
  (State.reset.phase = .idle ∧ State.reset.cause = .none ∧ State.reset.count = 0 ∧ State.reset.dir = .encrypt ∧
    State.reset.keylen = 0 ∧ State.reset.pending = none) ∧
  (∀ (s : State) (q : List Slot), s.sched = .reset :: q →
    ∃ t, step s = .next t ∧ t.phase = .idle ∧ t.cause = .none ∧ t.count = 0 ∧ t.dir = .encrypt ∧ t.keylen = 0 ∧ t.pending = none ∧
      t.sched = q ∧ t.inQ = s.inQ ∧ t.outQ = s.outQ ∧ t.rngQ = s.rngQ ∧
      (∀ v k, s.pending = some (.write v k) → t.log = .reset :: .dropped v :: s.log) ∧
      ((∀ v k, s.pending ≠ some (.write v k)) → t.log = .reset :: s.log))

/-- R187, R196, R210: while the core is not busy no step issues a port transaction: no port's answer is consumed and the history gains at
most the mark of a `START` or a reset. -/
def Obligations.NoTransactionWhileNotBusy : Prop :=
  ∀ s t : State, RunInv s → s.phase.busy = false → step s = .next t →
    t.inQ = s.inQ ∧ t.outQ = s.outQ ∧ t.rngQ = s.rngQ ∧
    (t.log = s.log ∨ (∃ d q, s.sched = .start d :: q ∧ t.log = .started d :: s.log) ∨
      (∃ q, s.sched = .reset :: q ∧ t.log = .reset :: s.log))

/-- R169: `PHASE` moves only along the transition table. -/
def Obligations.PhaseMovesAlongTheTable : Prop :=
  ∀ s t : State, RunInv s → step s = .next t → phaseMove s t

/-- The invariant of a run is kept by every step. -/
def Obligations.StepKeepsTheRunInvariant : Prop :=
  ∀ s t : State, RunInv s → step s = .next t → RunInv t

/-- The invariant holds after reset. -/
def Obligations.ResetMeetsTheRunInvariant : Prop := RunInv State.reset

/-- R35: no unspecified value is ever read.  Two states of a run that agree in all that is live step to states that do; so what the core
writes, answers and counts never depends on what the key store, the buffers or the hidden state held before they were written, and in
particular not on the values that the model gives them at reset (notes/assumptions/1.md). -/
def Obligations.NoUnspecifiedValueIsEverRead : Prop :=
  ∀ s s' t : State, RunInv s → LiveAgree s s' → step s = .next t → ∃ t', step s' = .next t' ∧ LiveAgree t t'

/-- R146: in a step of a run `PREV` changes only by a reset; or by `CE.IVLOAD`, to the full first chunk just read; or at the end of `CE.IVGEN`,
`CE.ENC.FULL` or `CE.DEC.FULL`, whose write has just returned `Ok`, to the block that was written (encrypt) or to the last full chunk read
(decrypt).  The core is then in `STREAM`. -/
def Obligations.PrevChangesOnlyAfterItsBlock : Prop :=
  ∀ s t : State, RunInv s → step s = .next t → t.prev ≠ s.prev →
    (∃ q, s.sched = .reset :: q) ∨
    (t.phase = .stream ∧ t.dir = .decrypt ∧ s.phase = .seed ∧ t.log = s.log ∧
      ∃ (c : Chunk) (l : List Event), s.pending = some (.readDone .stepSeed (.data c)) ∧ s.log = .read (.data c) :: l ∧
        c.len = 8 ∧ t.prev = pad8 c.bytes) ∨
    (t.phase = .stream ∧ t.log = s.log ∧
      ∃ (v : List Byte) (k : After) (l : List Event), s.pending = some (.written v k .ok) ∧ s.log = .write v .ok :: l ∧
        (k = .ivgen ∨ k = .encFull ∨ k = .decFull) ∧
        (t.dir = .encrypt → v = t.prev.toList) ∧ (t.dir = .decrypt → lastFullRead s.log = some t.prev))

/-- V13, R86: in a run `STATUS` is never 0x34: a decrypt operation has no entropy failure; and the flags `BUSY`, `DONE`, `FAIL` exclude
each other (R32). -/
def Obligations.StatusNeverShowsDecryptEntropyFailure : Prop :=
  ∀ s : State, (RunInv s → s.status ≠ 0x34) ∧
    (s.busyFlag = true → s.doneFlag = false ∧ s.failFlag = false) ∧ (s.doneFlag = true → s.failFlag = false)

/-! ### Whole runs -/

/-- R166, R167, R148 (encrypt): from a core that is not busy, `START 0` under `WB(P)`, a full draw and a sink that answers `Ok` ends in `DONE`
with `COUNT = len(P)` (modulo 2^64), the output is the closed form, its length is `len(P) + 8`, and the transactions are 1 draw,
`floor(len(P)/8) + 1` reads and the writes of R167. -/
def Obligations.EncryptRunProducesTheStream : Prop :=
  ∀ (s : State) (P : List Byte) (iv : Block), EncryptReady s P iv →
    ∃ t, runSteps (encryptSteps P.length) s = .next t ∧ t.phase = .done ∧ t.cause = .none ∧ t.dir = .encrypt ∧ t.key = s.key ∧
      t.count = BitVec.ofNat 64 P.length ∧
      runOut t.log = encStream s.key iv P ∧ (runOut t.log).length = P.length + 8 ∧
      eventCount Event.isDraw t.log = eventCount Event.isDraw s.log + 1 ∧
      eventCount Event.isRead t.log = eventCount Event.isRead s.log + (P.length / 8 + 1) ∧
      eventCount Event.isWrite t.log = eventCount Event.isWrite s.log + (1 + payloadWrites P.length)

/-- R166, R167, R148 (decrypt): the same for `START 1` and a stream `C` of at least 8 bytes; no draw. -/
def Obligations.DecryptRunProducesThePlaintext : Prop :=
  ∀ (s : State) (C : List Byte), 8 ≤ C.length → DecryptReady s C →
    ∃ t, runSteps (decryptSteps (C.length - 8)) s = .next t ∧ t.phase = .done ∧ t.cause = .none ∧ t.dir = .decrypt ∧ t.key = s.key ∧
      t.count = BitVec.ofNat 64 (C.length - 8) ∧
      runOut t.log = decStream s.key C ∧ (runOut t.log).length = C.length - 8 ∧
      eventCount Event.isDraw t.log = eventCount Event.isDraw s.log ∧
      eventCount Event.isRead t.log = eventCount Event.isRead s.log + ((C.length - 8) / 8 + 2) ∧
      eventCount Event.isWrite t.log = eventCount Event.isWrite s.log + payloadWrites (C.length - 8)

/-- R149: the stream round trip with its exact condition.  Decrypting with the same key what an encrypt run wrote gives as many bytes as
the plaintext had, the same bytes up to the last full chunk, the tail exclusive or'ed with the mask; so it gives the plaintext back if and
only if there is no tail or the mask is zero in the tail's positions. -/
def Obligations.StreamRoundTripWithItsCondition : Prop :=
  ∀ (s : State) (P : List Byte) (iv : Block), EncryptReady s P iv →
    ∃ t, runSteps (encryptSteps P.length) s = .next t ∧ t.phase = .done ∧
      ∀ s' : State, DecryptReady s' (runOut t.log) → s'.key = s.key →
        ∃ t', runSteps (decryptSteps P.length) s' = .next t' ∧ t'.phase = .done ∧
          (runOut t'.log).length = P.length ∧
          (∀ j, j < 8 * (P.length / 8) → (runOut t'.log)[j]? = P[j]?) ∧
          (∀ (i : Nat) (hi : i < P.length % 8) (h8 : i < 8) (hP : 8 * (P.length / 8) + i < P.length)
            (hD : 8 * (P.length / 8) + i < (runOut t'.log).length),
            (runOut t'.log)[8 * (P.length / 8) + i] = P[8 * (P.length / 8) + i] ^^^ (keyMask s.key)[i]) ∧
          (runOut t'.log = P ↔ P.length % 8 = 0 ∨ ∀ (i : Nat) (h8 : i < 8), i < P.length % 8 → (keyMask s.key)[i] = 0)

/-- R168: encrypting the empty input writes exactly the 8-byte encrypted IV; decrypting that writes nothing; both end in `DONE` with
`COUNT = 0`.  That the encrypted IV is `IV ^ M(KEY)` is the spec's own inference (R117, R148). -/
def Obligations.EmptyInputGivesTheIvBlockOnly : Prop :=
  ∀ (s : State) (iv : Block), EncryptReady s [] iv →
    ∃ t, runSteps (encryptSteps 0) s = .next t ∧ t.phase = .done ∧ t.count = 0 ∧ runOut t.log = (xorBlock iv (keyMask s.key)).toList ∧
      ∀ s' : State, DecryptReady s' (runOut t.log) →
        ∃ t', runSteps (decryptSteps 0) s' = .next t' ∧ t'.phase = .done ∧ t'.count = 0 ∧ runOut t'.log = []

/-- R184, R216: a decrypt input of fewer than 8 bytes ends in `FAIL` with `IOError` and nothing is written. -/
def Obligations.ShortDecryptInputFails : Prop :=
  ∀ (s : State) (C : List Byte), C.length < 8 → DecryptReady s C →
    ∃ t, runSteps 3 s = .next t ∧ t.phase = .fail ∧ t.cause = .ioError ∧ runOut t.log = [] ∧ t.outQ = s.outQ ∧ t.rngQ = s.rngQ ∧
      eventCount Event.isWrite t.log = eventCount Event.isWrite s.log

/-! ### The grain of a step -/

/-- R7: a whole port transaction is a step of its own.  When it is the core's turn and the port it asks has an answer, the step consumes the
answer, adds the transaction to the history and holds the answer; `PHASE`, `CAUSE`, `COUNT`, the buffers and all else are as before.  The
history (notes/assumptions/20.md) and the field that holds the answer (notes/assumptions/8.md) are the model's. -/
def Obligations.EveryTransactionIsAStepOfItsOwn : Prop :=
  ∀ (s : State) (q : List Slot), s.sched = .core :: q ∨ (s.sched = [] ∧ q = []) →
    (∀ (c : Chunk) (r : List (Option Chunk)),
      s.pending = some .draw ∨ (s.pending = none ∧ s.phase = .seed ∧ s.dir = .encrypt) → s.rngQ = some c :: r →
      step s = .next { s with sched := q, rngQ := r, pending := some (.drawn c), log := .draw c :: s.log }) ∧
    (∀ (k : Reader) (a : InAnswer) (r : List (Option InAnswer)),
      s.pending = some (.read k) ∨ (s.pending = none ∧ k = .stepSeed ∧ s.phase = .seed ∧ s.dir = .decrypt) ∨
        (s.pending = none ∧ k = .stepStream ∧ s.phase = .stream) → s.inQ = some a :: r →
      step s = .next { s with sched := q, inQ := r, pending := some (.readDone k a), log := .read a :: s.log }) ∧
    (∀ (v : List Byte) (k : After) (a : OutAnswer) (r : List (Option OutAnswer)),
      s.pending = some (.offer v k) ∨ s.pending = some (.write v k) → s.outQ = some a :: r →
      step s = .next { s with sched := q, outQ := r, pending := some (.written v k a), log := .write v a :: s.log })

/-- R7: a computation is a step of its own.  The step that follows an answer touches no port and no key, adds nothing to the history, and
leaves the operation ended or its write due; it changes `PREV`, `COUNT` or `PHASE` only where it ends the operation. -/
def Obligations.ComputationsTouchNoPort : Prop :=
  ∀ (s : State) (q : List Slot) (p : Pending), s.sched = .core :: q ∨ (s.sched = [] ∧ q = []) → s.pending = some p →
    (∃ c, p = .drawn c) ∨ (∃ k a, p = .readDone k a) ∨ (∃ v k a, p = .written v k a) →
    ∃ t, step s = .next t ∧ t.sched = q ∧ t.inQ = s.inQ ∧ t.outQ = s.outQ ∧ t.rngQ = s.rngQ ∧ t.log = s.log ∧ t.key = s.key ∧
      t.keylen = s.keylen ∧ t.dir = s.dir ∧
      (t.pending = none ∨
        ∃ v k, t.pending = some (.offer v k) ∧ t.prev = s.prev ∧ t.count = s.count ∧ t.phase = s.phase ∧ t.cause = s.cause)

/-- R7, R171: `SR` falls between a read and what is done with it.  A host that issues `SR` right after the answer of a read, whatever the
answer is, reads the `STATUS` of before: `STREAM` before `SF.END` or an `IOError`, `SEED` before `CE.IVLOAD` or an `IOError`.  The chunk has
been consumed, and nothing else has happened. -/
def Obligations.SrFallsBetweenAReadAndItsUse : Prop :=
  ∀ (s : State) (a : InAnswer) (r : List (Option InAnswer)) (q : List Slot), s.sched = .core :: .sr :: q → s.pending = none →
    s.phase = .stream ∨ (s.phase = .seed ∧ s.dir = .decrypt) → s.inQ = some a :: r →
    ∃ (k : Reader) (c : BitVec 64) (n : Nat),
      runSteps 2 s =
        .next
          { s with
            sched := q, inQ := r, pending := some (.readDone k a), log := .read a :: s.log, ret := .status s.status c, freeCounter := n }
end

