-- ==== Sys2Proof/Laws/State.lean ====
section
/-!
SUPPORT. One lemma per field for the shared updates of the state (`raise`, `finish`, `offer`, `resetCore`), and what the flags and words are.
-/

namespace Sys2Proof.Machine

section raise
variable (e : ErrorKind) (s : State)

@[simp] theorem raise_blk : (raise e s).blk = s.blk := rfl
@[simp] theorem raise_prev : (raise e s).prev = s.prev := rfl
@[simp] theorem raise_ct : (raise e s).ct = s.ct := rfl
@[simp] theorem raise_key : (raise e s).key = s.key := rfl
@[simp] theorem raise_keylen : (raise e s).keylen = s.keylen := rfl
@[simp] theorem raise_dir : (raise e s).dir = s.dir := rfl
@[simp] theorem raise_phase : (raise e s).phase = .fail := rfl
@[simp] theorem raise_cause : (raise e s).cause = causeOf e := rfl
@[simp] theorem raise_count : (raise e s).count = s.count := rfl
@[simp] theorem raise_round : (raise e s).round = s.round := rfl
@[simp] theorem raise_lane : (raise e s).lane = s.lane := rfl
@[simp] theorem raise_cursor : (raise e s).cursor = s.cursor := rfl
@[simp] theorem raise_t : (raise e s).t = s.t := rfl
@[simp] theorem raise_pending : (raise e s).pending = none := rfl
@[simp] theorem raise_ret : (raise e s).ret = s.ret := rfl
@[simp] theorem raise_sched : (raise e s).sched = s.sched := rfl
@[simp] theorem raise_inQ : (raise e s).inQ = s.inQ := rfl
@[simp] theorem raise_outQ : (raise e s).outQ = s.outQ := rfl
@[simp] theorem raise_rngQ : (raise e s).rngQ = s.rngQ := rfl
@[simp] theorem raise_log : (raise e s).log = s.log := rfl
@[simp] theorem raise_freeCounter : (raise e s).freeCounter = s.freeCounter := rfl

end raise

section finish
variable (k : After) (n : Nat) (s : State)

@[simp] theorem finish_blk : (finish k n s).blk = s.blk := by cases k <;> rfl
@[simp] theorem finish_ct : (finish k n s).ct = s.ct := by cases k <;> rfl
@[simp] theorem finish_key : (finish k n s).key = s.key := by cases k <;> rfl
@[simp] theorem finish_keylen : (finish k n s).keylen = s.keylen := by cases k <;> rfl
@[simp] theorem finish_dir : (finish k n s).dir = s.dir := by cases k <;> rfl
@[simp] theorem finish_cause : (finish k n s).cause = s.cause := by cases k <;> rfl
@[simp] theorem finish_round : (finish k n s).round = s.round := by cases k <;> rfl
@[simp] theorem finish_lane : (finish k n s).lane = s.lane := by cases k <;> rfl
@[simp] theorem finish_cursor : (finish k n s).cursor = s.cursor := by cases k <;> rfl
@[simp] theorem finish_t : (finish k n s).t = s.t := by cases k <;> rfl
@[simp] theorem finish_pending : (finish k n s).pending = s.pending := by cases k <;> rfl
@[simp] theorem finish_ret : (finish k n s).ret = s.ret := by cases k <;> rfl
@[simp] theorem finish_sched : (finish k n s).sched = s.sched := by cases k <;> rfl
@[simp] theorem finish_inQ : (finish k n s).inQ = s.inQ := by cases k <;> rfl
@[simp] theorem finish_outQ : (finish k n s).outQ = s.outQ := by cases k <;> rfl
@[simp] theorem finish_rngQ : (finish k n s).rngQ = s.rngQ := by cases k <;> rfl
@[simp] theorem finish_log : (finish k n s).log = s.log := by cases k <;> rfl
@[simp] theorem finish_freeCounter : (finish k n s).freeCounter = s.freeCounter := by cases k <;> rfl

end finish

section offer
variable (v : List Byte) (k : After) (s : State)

@[simp] theorem offer_blk : (offer v k s).blk = s.blk := rfl
@[simp] theorem offer_prev : (offer v k s).prev = s.prev := rfl
@[simp] theorem offer_ct : (offer v k s).ct = s.ct := rfl
@[simp] theorem offer_key : (offer v k s).key = s.key := rfl
@[simp] theorem offer_keylen : (offer v k s).keylen = s.keylen := rfl
@[simp] theorem offer_dir : (offer v k s).dir = s.dir := rfl
@[simp] theorem offer_phase : (offer v k s).phase = s.phase := rfl
@[simp] theorem offer_cause : (offer v k s).cause = s.cause := rfl
@[simp] theorem offer_count : (offer v k s).count = s.count := rfl
@[simp] theorem offer_round : (offer v k s).round = s.round := rfl
@[simp] theorem offer_lane : (offer v k s).lane = s.lane := rfl
@[simp] theorem offer_cursor : (offer v k s).cursor = s.cursor := rfl
@[simp] theorem offer_t : (offer v k s).t = s.t := rfl
@[simp] theorem offer_pending : (offer v k s).pending = some (.offer v k) := rfl
@[simp] theorem offer_ret : (offer v k s).ret = s.ret := rfl
@[simp] theorem offer_sched : (offer v k s).sched = s.sched := rfl
@[simp] theorem offer_inQ : (offer v k s).inQ = s.inQ := rfl
@[simp] theorem offer_outQ : (offer v k s).outQ = s.outQ := rfl
@[simp] theorem offer_rngQ : (offer v k s).rngQ = s.rngQ := rfl
@[simp] theorem offer_log : (offer v k s).log = s.log := rfl
@[simp] theorem offer_freeCounter : (offer v k s).freeCounter = s.freeCounter := rfl

end offer

section resetCore
variable (s : State)

@[simp] theorem resetCore_phase : (resetCore s).phase = .idle := rfl
@[simp] theorem resetCore_cause : (resetCore s).cause = .none := rfl
@[simp] theorem resetCore_count : (resetCore s).count = 0 := rfl
@[simp] theorem resetCore_dir : (resetCore s).dir = .encrypt := rfl
@[simp] theorem resetCore_keylen : (resetCore s).keylen = 0 := rfl
@[simp] theorem resetCore_pending : (resetCore s).pending = none := rfl
@[simp] theorem resetCore_sched : (resetCore s).sched = s.sched := rfl
@[simp] theorem resetCore_inQ : (resetCore s).inQ = s.inQ := rfl
@[simp] theorem resetCore_outQ : (resetCore s).outQ = s.outQ := rfl
@[simp] theorem resetCore_rngQ : (resetCore s).rngQ = s.rngQ := rfl
@[simp] theorem resetCore_log : (resetCore s).log = logReset s := rfl
@[simp] theorem resetCore_freeCounter : (resetCore s).freeCounter = s.freeCounter := rfl

end resetCore

/-- `sameButHidden`, field by field: every field but the four hidden ones agrees. -/
theorem sameButHidden_iff (a b : State) :
    sameButHidden a b ↔
      a.blk = b.blk ∧ a.prev = b.prev ∧ a.ct = b.ct ∧ a.key = b.key ∧ a.keylen = b.keylen ∧ a.dir = b.dir ∧ a.phase = b.phase ∧
      a.cause = b.cause ∧ a.count = b.count ∧ a.pending = b.pending ∧ a.ret = b.ret ∧ a.sched = b.sched ∧ a.inQ = b.inQ ∧
      a.outQ = b.outQ ∧ a.rngQ = b.rngQ ∧ a.log = b.log ∧ a.freeCounter = b.freeCounter := by
  cases a; cases b
  simp [sameButHidden]

end Sys2Proof.Machine
end

