-- ==== Sys2Proof/Laws/Ops.lean ====
section
/-!
SUPPORT. What each shared operation can do, said once: operand forms, the rounds, the port primitives, an operation as a whole.
-/

namespace Sys2Proof.Machine

/-! ### Blocks -/

/-- Padding a full block does nothing (30_encoding.md R87: "For a full chunk no padding byte is written"). -/
@[simp] theorem pad8_toList (b : Block) : pad8 b.toList = b := by
  ext j hj
  simp [pad8]

@[simp] theorem pad8_get (b : List Byte) (j : Nat) (hj : j < 8) : (pad8 b)[j] = b.getD j 0 := by
  simp [pad8]

@[simp] theorem xorBlock_get (a b : Block) (j : Nat) (hj : j < 8) : (xorBlock a b)[j] = a[j] ^^^ b[j] := by
  simp [xorBlock]

theorem xorBlock_comm (a b : Block) : xorBlock a b = xorBlock b a := by
  ext1 j hj
  simp [BitVec.xor_comm]

theorem xorBlock_assoc (a b c : Block) : xorBlock (xorBlock a b) c = xorBlock a (xorBlock b c) := by
  ext1 j hj
  simp [BitVec.xor_assoc]

@[simp] theorem xorBlock_cancel (a b : Block) : xorBlock (xorBlock a b) b = a := by
  ext1 j hj
  simp

theorem firstBytes_length (n : Nat) (b : Block) (h : n ≤ 8) : (firstBytes n b).length = n := by
  simp [firstBytes, h]

@[simp] theorem keyIndex_val (r : RoundIndex) (i : Fin 4) : (keyIndex r i).val = 4 * r.toNat + i.val := rfl

/-- The decrypt cursor names the same key byte as the encrypt index (30_encoding.md R88, R89). -/
@[simp] theorem cursorIndex_eq (r : RoundIndex) (i : Fin 4) : cursorIndex r i = keyIndex r i := rfl

theorem storeKey_get (old : Key) (key : List Byte) (j : Nat) (hj : j < 64) : (storeKey old key)[j] = key.getD j old[j] := by
  simp [storeKey]

/-! ### Rounds -/

/-- The block after an encrypt round under the round key `k0 … k3`: the halves change places and the new right half is mixed. -/
def mixE (b : Block) (k0 k1 k2 k3 : Byte) : Block :=
  #v[b[4], b[5], b[6], b[7], b[0] ^^^ k0, b[1] ^^^ k1, b[2] ^^^ k2, b[3] ^^^ k3]

/-- The block after a decrypt round under the round key `k0 … k3`. -/
def mixD (b : Block) (k0 k1 k2 k3 : Byte) : Block :=
  #v[b[4] ^^^ k0, b[5] ^^^ k1, b[6] ^^^ k2, b[7] ^^^ k3, b[0], b[1], b[2], b[3]]

/-- All that an encrypt round does. -/
theorem roundE_eq (r : RoundIndex) (s : State) :
    roundE r s =
      { s with
        blk := mixE s.blk s.key[keyIndex r 0] s.key[keyIndex r 1] s.key[keyIndex r 2] s.key[keyIndex r 3], lane := 3, t := s.blk[7] } := by
  have hb : (roundE r s).blk = mixE s.blk s.key[keyIndex r 0] s.key[keyIndex r 1] s.key[keyIndex r 2] s.key[keyIndex r 3] := by
    ext1 j hj
    simp only [roundE, lanes, List.foldl, laneE, setLeft, setRight, leftByte, rightByte, rf, mixE]
    match j, hj with
    | 0, _ | 1, _ | 2, _ | 3, _ | 4, _ | 5, _ | 6, _ | 7, _ => simp
  have ht : (roundE r s).t = s.blk[7] := by
    simp [roundE, lanes, laneE, setLeft, setRight, leftByte, rightByte, rf]
  have : roundE r s = { s with blk := (roundE r s).blk, lane := 3, t := (roundE r s).t } := rfl
  rw [this, hb, ht]

/-- All that a decrypt round does. -/
theorem roundD_eq (r : RoundIndex) (s : State) :
    roundD r s =
      { s with
        blk := mixD s.blk s.key[keyIndex r 0] s.key[keyIndex r 1] s.key[keyIndex r 2] s.key[keyIndex r 3], lane := 3, t := s.blk[3]
        cursor := 4 * r.toNat } := by
  have hb : (roundD r s).blk = mixD s.blk s.key[keyIndex r 0] s.key[keyIndex r 1] s.key[keyIndex r 2] s.key[keyIndex r 3] := by
    ext1 j hj
    simp only [roundD, lanes, List.foldl, laneD, setLeft, setRight, leftByte, rightByte, rf, mixD, cursorIndex_eq]
    match j, hj with
    | 0, _ | 1, _ | 2, _ | 3, _ | 4, _ | 5, _ | 6, _ | 7, _ => simp
  have ht : (roundD r s).t = s.blk[3] := by
    simp [roundD, lanes, laneD, setLeft, setRight, leftByte, rightByte, rf]
  have : roundD r s = { s with blk := (roundD r s).blk, lane := 3, t := (roundD r s).t, cursor := 4 * r.toNat } := rfl
  rw [this, hb, ht]

/-- The block transform changes the block and the hidden round state only; its last round was round 15. -/
theorem blockEnc_frame (s : State) :
    blockEnc s = { s with blk := (blockEnc s).blk, round := 15, lane := 3, t := (blockEnc s).t } := by
  simp only [blockEnc, encRounds, List.foldl, roundE_eq]

/-- The inverse transform changes the block and the hidden round state only; its last round was round 0. -/
theorem blockDec_frame (s : State) :
    blockDec s = { s with blk := (blockDec s).blk, round := 0, lane := 3, t := (blockDec s).t, cursor := 0 } := by
  simp only [blockDec, decRounds, List.foldl, roundD_eq]
  rfl

section blockTransforms
variable (s : State)

@[simp] theorem blockEnc_prev : (blockEnc s).prev = s.prev := by rw [blockEnc_frame]
@[simp] theorem blockEnc_ct : (blockEnc s).ct = s.ct := by rw [blockEnc_frame]
@[simp] theorem blockEnc_key : (blockEnc s).key = s.key := by rw [blockEnc_frame]
@[simp] theorem blockEnc_keylen : (blockEnc s).keylen = s.keylen := by rw [blockEnc_frame]
@[simp] theorem blockEnc_dir : (blockEnc s).dir = s.dir := by rw [blockEnc_frame]
@[simp] theorem blockEnc_phase : (blockEnc s).phase = s.phase := by rw [blockEnc_frame]
@[simp] theorem blockEnc_cause : (blockEnc s).cause = s.cause := by rw [blockEnc_frame]
@[simp] theorem blockEnc_count : (blockEnc s).count = s.count := by rw [blockEnc_frame]
@[simp] theorem blockEnc_pending : (blockEnc s).pending = s.pending := by rw [blockEnc_frame]
@[simp] theorem blockEnc_ret : (blockEnc s).ret = s.ret := by rw [blockEnc_frame]
@[simp] theorem blockEnc_sched : (blockEnc s).sched = s.sched := by rw [blockEnc_frame]
@[simp] theorem blockEnc_inQ : (blockEnc s).inQ = s.inQ := by rw [blockEnc_frame]
@[simp] theorem blockEnc_outQ : (blockEnc s).outQ = s.outQ := by rw [blockEnc_frame]
@[simp] theorem blockEnc_rngQ : (blockEnc s).rngQ = s.rngQ := by rw [blockEnc_frame]
@[simp] theorem blockEnc_log : (blockEnc s).log = s.log := by rw [blockEnc_frame]
@[simp] theorem blockEnc_freeCounter : (blockEnc s).freeCounter = s.freeCounter := by rw [blockEnc_frame]
@[simp] theorem blockEnc_cursor : (blockEnc s).cursor = s.cursor := by rw [blockEnc_frame]
@[simp] theorem blockDec_prev : (blockDec s).prev = s.prev := by rw [blockDec_frame]
@[simp] theorem blockDec_ct : (blockDec s).ct = s.ct := by rw [blockDec_frame]
@[simp] theorem blockDec_key : (blockDec s).key = s.key := by rw [blockDec_frame]
@[simp] theorem blockDec_keylen : (blockDec s).keylen = s.keylen := by rw [blockDec_frame]
@[simp] theorem blockDec_dir : (blockDec s).dir = s.dir := by rw [blockDec_frame]
@[simp] theorem blockDec_phase : (blockDec s).phase = s.phase := by rw [blockDec_frame]
@[simp] theorem blockDec_cause : (blockDec s).cause = s.cause := by rw [blockDec_frame]
@[simp] theorem blockDec_count : (blockDec s).count = s.count := by rw [blockDec_frame]
@[simp] theorem blockDec_pending : (blockDec s).pending = s.pending := by rw [blockDec_frame]
@[simp] theorem blockDec_ret : (blockDec s).ret = s.ret := by rw [blockDec_frame]
@[simp] theorem blockDec_sched : (blockDec s).sched = s.sched := by rw [blockDec_frame]
@[simp] theorem blockDec_inQ : (blockDec s).inQ = s.inQ := by rw [blockDec_frame]
@[simp] theorem blockDec_outQ : (blockDec s).outQ = s.outQ := by rw [blockDec_frame]
@[simp] theorem blockDec_rngQ : (blockDec s).rngQ = s.rngQ := by rw [blockDec_frame]
@[simp] theorem blockDec_log : (blockDec s).log = s.log := by rw [blockDec_frame]
@[simp] theorem blockDec_freeCounter : (blockDec s).freeCounter = s.freeCounter := by rw [blockDec_frame]

end blockTransforms

/-! ### Port primitives -/

/-- Everything a draw can do. -/
theorem askDraw_cases (s : State) :
    (∃ c q, s.rngQ = some c :: q ∧ askDraw s = { s with rngQ := q, pending := some (.drawn c), log := .draw c :: s.log }) ∨
    ((s.rngQ.head? = none ∨ s.rngQ.head? = some none) ∧ askDraw s = { s with rngQ := s.rngQ.tail, pending := some .draw }) := by
  unfold askDraw
  split
  · exact .inl ⟨_, _, ‹_›, rfl⟩
  · exact .inr ⟨by simp_all, by simp_all⟩
  · exact .inr ⟨by simp_all, by simp_all⟩

/-- Everything a read can do. -/
theorem askRead_cases (k : Reader) (s : State) :
    (∃ a q, s.inQ = some a :: q ∧ askRead k s = { s with inQ := q, pending := some (.readDone k a), log := .read a :: s.log }) ∨
    ((s.inQ.head? = none ∨ s.inQ.head? = some none) ∧ askRead k s = { s with inQ := s.inQ.tail, pending := some (.read k) }) := by
  unfold askRead
  split
  · exact .inl ⟨_, _, ‹_›, rfl⟩
  · exact .inr ⟨by simp_all, by simp_all⟩
  · exact .inr ⟨by simp_all, by simp_all⟩

/-- Everything a write can do. -/
theorem askWrite_cases (v : List Byte) (k : After) (s : State) :
    (∃ a q, s.outQ = some a :: q ∧ askWrite v k s = { s with outQ := q, pending := some (.written v k a), log := .write v a :: s.log }) ∨
    ((s.outQ.head? = none ∨ s.outQ.head? = some none) ∧
      askWrite v k s = { s with outQ := s.outQ.tail, pending := some (.write v k) }) := by
  unfold askWrite
  split
  · exact .inl ⟨_, _, ‹_›, rfl⟩
  · exact .inr ⟨by simp_all, by simp_all⟩
  · exact .inr ⟨by simp_all, by simp_all⟩

/-- Every failed write does the same. -/
theorem afterWrite_fail (v : List Byte) (k : After) (a : OutAnswer) (s : State) (h : a ≠ .ok) : afterWrite v k a s = raise .io s := by
  cases a <;> simp_all [afterWrite]

@[simp] theorem afterWrite_ok (v : List Byte) (k : After) (s : State) :
    afterWrite v k .ok s = finish k v.length { s with pending := none } := rfl

@[simp] theorem afterRead_data (k : Reader) (c : Chunk) (s : State) :
    afterRead k (.data c) s = useChunk k c { s with pending := none } := rfl

@[simp] theorem afterRead_err (k : Reader) (s : State) : afterRead k .err s = raise .io s := rfl

/-! ### An operation as a whole -/

/-- An operation that has ended goes no further. -/
theorem carryOn_ended (n : Nat) (s : State) (h : s.pending = none) : carryOn n s = s := by
  cases n <;> simp [carryOn, h]

/-- An operation that waits goes no further. -/
theorem carryOn_waiting (n : Nat) (s : State) (p : Pending) (h : s.pending = some p) (w : p.waiting = true) : carryOn n s = s := by
  cases n <;> simp [carryOn, h, w]

/-- An operation that does not wait makes its next move. -/
theorem carryOn_move (n : Nat) (s : State) (p : Pending) (h : s.pending = some p) (w : p.waiting = false) :
    carryOn (n + 1) s = carryOn n (advance p s) := by
  simp [carryOn, h, w]

/-- Everything that becomes of an operation whose write has been issued or is due: it finishes, it aborts, or it waits. -/
theorem carryOn_askWrite (n : Nat) (v : List Byte) (k : After) (s : State) :
    (∃ q, s.outQ = some .ok :: q ∧
      carryOn (n + 1) (askWrite v k s) = finish k v.length { s with outQ := q, pending := none, log := .write v .ok :: s.log }) ∨
    (∃ a q, a ≠ .ok ∧ s.outQ = some a :: q ∧
      carryOn (n + 1) (askWrite v k s) = raise .io { s with outQ := q, log := .write v a :: s.log }) ∨
    ((s.outQ.head? = none ∨ s.outQ.head? = some none) ∧
      carryOn (n + 1) (askWrite v k s) = { s with outQ := s.outQ.tail, pending := some (.write v k) }) := by
  obtain ⟨a, q, h, e⟩ | ⟨h, e⟩ := askWrite_cases v k s
  · rw [e, carryOn_move n _ (.written v k a) rfl rfl]
    by_cases ha : a = .ok
    · subst ha
      refine .inl ⟨q, h, ?_⟩
      rw [carryOn_ended]
      · rfl
      · simp [advance]
    · refine .inr (.inl ⟨a, q, ha, h, ?_⟩)
      rw [carryOn_ended]
      · simp [advance, afterWrite_fail _ _ _ _ ha, raise]
      · simp [advance, afterWrite_fail _ _ _ _ ha]
  · refine .inr (.inr ⟨h, ?_⟩)
    rw [e, carryOn_waiting _ _ (.write v k) rfl rfl]

/-- Everything that becomes of an operation that has computed its bytes. -/
theorem complete_offer (v : List Byte) (k : After) (s : State) :
    (∃ q, s.outQ = some .ok :: q ∧
      complete (offer v k s) = finish k v.length { s with outQ := q, pending := none, log := .write v .ok :: s.log }) ∨
    (∃ a q, a ≠ .ok ∧ s.outQ = some a :: q ∧ complete (offer v k s) = raise .io { s with outQ := q, log := .write v a :: s.log }) ∨
    ((s.outQ.head? = none ∨ s.outQ.head? = some none) ∧
      complete (offer v k s) = { s with outQ := s.outQ.tail, pending := some (.write v k) }) := by
  have e : complete (offer v k s) = carryOn 2 (askWrite v k (offer v k s)) := carryOn_move 2 _ (.offer v k) rfl rfl
  rw [e]
  exact carryOn_askWrite 1 v k (offer v k s)

/-! ### One move -/

/-- What no move of an operation touches: the key, the direction, the schedule and the free values. -/
theorem advance_frame (p : Pending) (s : State) :
    (advance p s).key = s.key ∧ (advance p s).keylen = s.keylen ∧ (advance p s).dir = s.dir ∧ (advance p s).sched = s.sched ∧
      (advance p s).freeCounter = s.freeCounter := by
  cases p with
  | draw => obtain ⟨c, q, _, e⟩ | ⟨_, e⟩ := askDraw_cases s <;> simp [advance, e]
  | drawn c => simp only [advance, ceIvgen]; split <;> simp
  | read k => obtain ⟨a, q, _, e⟩ | ⟨_, e⟩ := askRead_cases k s <;> simp [advance, e]
  | readDone k a =>
    cases a with
    | err => simp [advance]
    | data c =>
      cases k <;> simp only [advance, afterRead_data, useChunk, seedChunk, streamChunk, ceEncFull, ceDecFull, ceEncTail, ceDecTail] <;>
        (repeat' split) <;> simp [ceIvload, endOp, *]
  | offer v k => obtain ⟨a, q, _, e⟩ | ⟨_, e⟩ := askWrite_cases v k s <;> simp [advance, e]
  | write v k => obtain ⟨a, q, _, e⟩ | ⟨_, e⟩ := askWrite_cases v k s <;> simp [advance, e]
  | written v k a =>
    by_cases h : a = .ok
    · subst h; simp [advance]
    · simp [advance, afterWrite_fail _ _ _ _ h]

/-! No computation reads the schedule. -/

theorem blockEnc_sched_comm (s : State) (q : List Slot) : blockEnc { s with sched := q } = { blockEnc s with sched := q } := by
  simp only [blockEnc, encRounds, List.foldl, roundE_eq]

theorem blockDec_sched_comm (s : State) (q : List Slot) : blockDec { s with sched := q } = { blockDec s with sched := q } := by
  simp only [blockDec, decRounds, List.foldl, roundD_eq]

theorem ceEncFull_sched (b : Block) (s : State) (q : List Slot) : ceEncFull b { s with sched := q } = { ceEncFull b s with sched := q } :=
  congrArg (fun x : State => offer x.blk.toList .encFull x) (blockEnc_sched_comm { s with blk := xorBlock b s.prev } q)

theorem ceEncTail_sched (b : List Byte) (s : State) (q : List Slot) :
    ceEncTail b { s with sched := q } = { ceEncTail b s with sched := q } :=
  congrArg (fun x : State => offer (firstBytes b.length x.blk) .encTail x) (blockEnc_sched_comm { s with blk := xorBlock (pad8 b) s.prev } q)

theorem ceDecFull_sched (b : Block) (s : State) (q : List Slot) : ceDecFull b { s with sched := q } = { ceDecFull b s with sched := q } := by
  unfold ceDecFull offer
  dsimp only
  rw [blockDec_sched_comm { s with ct := b, blk := b } q]

theorem streamChunk_sched (c : Chunk) (s : State) (q : List Slot) :
    streamChunk c { s with sched := q } = { streamChunk c s with sched := q } := by
  obtain ⟨blk, prev, ct, key, keylen, dir, phase, cause, count, round, lane, cursor, t, pending, ret, sched, inQ, outQ, rngQ, log, free⟩ := s
  simp only [streamChunk]
  split
  · cases dir
    · exact ceEncFull_sched _ ⟨_, _, _, _, _, _, _, _, _, _, _, _, _, _, _, _, _, _, _, _, _⟩ q
    · exact ceDecFull_sched _ ⟨_, _, _, _, _, _, _, _, _, _, _, _, _, _, _, _, _, _, _, _, _⟩ q
  · split
    · cases dir
      · exact ceEncTail_sched _ ⟨_, _, _, _, _, _, _, _, _, _, _, _, _, _, _, _, _, _, _, _, _⟩ q
      · rfl
    · rfl

/-- A move of an operation does not read the schedule. -/
theorem advance_sched (p : Pending) (s : State) (q : List Slot) : advance p { s with sched := q } = { advance p s with sched := q } := by
  cases p with
  | draw => simp only [advance, askDraw]; split <;> rfl
  | drawn c =>
    simp only [advance, ceIvgen]
    split
    · exact congrArg (fun x : State => offer x.blk.toList .ivgen x) (blockEnc_sched_comm { s with blk := pad8 c.bytes, pending := none } q)
    · rfl
  | read k => simp only [advance, askRead]; split <;> rfl
  | readDone k a =>
    cases a with
    | err => rfl
    | data c =>
      cases k with
      | bare => rfl
      | stepSeed => simp only [advance, afterRead_data, useChunk, seedChunk]; split <;> rfl
      | stepStream => exact streamChunk_sched c { s with pending := none } q
  | offer v k => simp only [advance, askWrite]; split <;> rfl
  | write v k => simp only [advance, askWrite]; split <;> rfl
  | written v k a => cases a <;> cases k <;> rfl

/-! ### What comes next -/

/-- A step is what `nextOp` says. -/
theorem step_eq (s : State) :
    step s = match nextOp s with
      | .run i s' => exec i s'
      | .become s' => .next s'
      | .bad bytes => .refused (.badDescriptor bytes) := rfl

end Sys2Proof.Machine
end

