-- ==== Sys2Proof/Laws/Step.lean ====
section
/-!
SUPPORT. What a step can do, said once: the inversion lemmas for the core's move and for a whole step.
-/

namespace Sys2Proof.Machine

/-- What the core's move from `s` to `t` can be. -/
inductive CoreMove (s t : State) : Prop
  /-- not busy, no operation in progress: nothing happens -/
  | stay (idle : s.phase.busy = false) (free : s.pending = none) (eq : t = s)
  /-- the next step of the operation in progress -/
  | advance (p : Pending) (next : s.pending = some p) (eq : t = Machine.advance p s)
  /-- the first step of `SF.STEP`, the IV step of the encrypt direction -/
  | draw (phase : s.phase = .seed) (dir : s.dir = .encrypt) (free : s.pending = none) (eq : t = askDraw s)
  /-- the first step of `SF.STEP`, the IV step of the decrypt direction -/
  | seed (phase : s.phase = .seed) (dir : s.dir = .decrypt) (free : s.pending = none) (eq : t = askRead .stepSeed s)
  /-- the first step of `SF.STEP`, the loop -/
  | stream (phase : s.phase = .stream) (free : s.pending = none) (eq : t = askRead .stepStream s)

/-- What a step from `s` to `t` can be, when no operation is selected by name. -/
inductive Move (s t : State) : Prop
  | load (key : List Byte) (q : List Slot) (head : s.sched = .load key :: q)
      (eq : t = if s.phase.busy then { s with sched := q } else { s with sched := q, keylen := key.length, key := storeKey s.key key })
  | start (d : Dir) (q : List Slot) (head : s.sched = .start d :: q) (eq : t = startOp d { s with sched := q })
  | sr (q : List Slot) (head : s.sched = .sr :: q) (eq : t = readStatus { s with sched := q })
  | reset (q : List Slot) (head : s.sched = .reset :: q) (eq : t = resetCore { s with sched := q })
  | core (q : List Slot) (head : s.sched = .core :: q ∨ (s.sched = [] ∧ q = [])) (move : CoreMove { s with sched := q } t)

/-- Everything the core's move can be. -/
theorem coreMove_cases (s : State) : CoreMove s (coreMove s) := by
  unfold coreMove
  cases hp : s.pending with
  | some p => exact .advance p hp rfl
  | none =>
    cases hph : s.phase with
    | seed =>
      cases hd : s.dir with
      | encrypt => exact .draw hph hd hp (by simp [seedFirst, hd])
      | decrypt => exact .seed hph hd hp (by simp [seedFirst, hd])
    | stream => exact .stream hph hp rfl
    | idle => exact .stay (by simp [hph, Phase.busy]) hp rfl
    | done => exact .stay (by simp [hph, Phase.busy]) hp rfl
    | fail => exact .stay (by simp [hph, Phase.busy]) hp rfl

/-- Step inversion: a step that answers a next state, and does not select an operation by name, is one of the moves. -/
theorem move_of_step {s t : State} (hn : headNotSelect s) (h : step s = .next t) : Move s t := by
  rw [step_eq] at h
  unfold nextOp at h
  rcases hs : s.sched with _ | ⟨a, q⟩
  · simp only [hs] at h
    refine .core [] (.inr ⟨hs, rfl⟩) ?_
    have : ({ s with sched := [] } : State) = s := by rw [← hs]
    rw [this]
    cases h
    exact coreMove_cases s
  · cases a with
    | core =>
      simp only [hs, Host.Outcome.next.injEq] at h
      exact .core q (.inl hs) (h ▸ coreMove_cases _)
    | load key =>
      simp only [hs, exec, execKsLoad, Host.Outcome.next.injEq] at h
      exact .load key q hs h.symm
    | start d =>
      simp only [hs, exec, execStart, Host.Outcome.next.injEq] at h
      exact .start d q hs h.symm
    | sr =>
      simp only [hs, exec, execSr, Host.Outcome.next.injEq] at h
      exact .sr q hs h.symm
    | reset =>
      simp only [hs, Host.Outcome.next.injEq] at h
      exact .reset q hs h.symm
    | select d => exact absurd hs (hn d q)

/-- A schedule that selects nothing does not select first. -/
theorem headNotSelect_of_noSelect {s : State} (h : noSelect s.sched) : headNotSelect s :=
  fun d _ hs => h d (hs ▸ List.mem_cons_self)

/-! ### Several steps -/

/-- A step of the core while an operation is in progress and the host is silent. -/
theorem step_advance {s : State} {p : Pending} (hs : s.sched = []) (hp : s.pending = some p) : step s = .next (advance p s) := by
  simp [step_eq, nextOp, hs, coreMove, hp]

/-- The first of several steps. -/
theorem runSteps_succ {n : Nat} {s t : State} (h : step s = .next t) : runSteps (n + 1) s = runSteps n t := by
  simp [runSteps, Host.Core.run, Sys2Proof.core, h]

/-- The core's moves, with the host silent, carry an operation on as `carryOn` does. -/
theorem runSteps_carryOn (n : Nat) (s : State) (hs : s.sched = []) : ∃ m, m ≤ n ∧ runSteps m s = .next (carryOn n s) := by
  induction n generalizing s with
  | zero => exact ⟨0, Nat.le_refl 0, rfl⟩
  | succ n ih =>
    cases hp : s.pending with
    | none => exact ⟨0, Nat.zero_le _, by rw [carryOn_ended _ _ hp]; rfl⟩
    | some p =>
      cases hw : p.waiting with
      | true => exact ⟨0, Nat.zero_le _, by rw [carryOn_waiting _ _ p hp hw]; rfl⟩
      | false =>
        obtain ⟨m, hm, e⟩ := ih (advance p s) (by rw [(advance_frame p s).2.2.2.1, hs])
        exact ⟨m + 1, by omega, by rw [carryOn_move _ _ p hp hw, runSteps_succ (step_advance hs hp), e]⟩

end Sys2Proof.Machine
end

