-- ==== Sys2Proof/Tests/Slice0.lean ====
section
/-!
SUPPORT. Tests of one step or one operation each, against words and values written out in spec/30_encoding.md and
spec/95_test_vectors.md (keys K1 and K2, the IV `IV*`), and a witness for the hypotheses of every statement that has some.
-/

namespace Sys2Proof.Tests
open Sys2Proof Sys2Proof.Machine

/-! ### Helpers -/

/-- Key K2 of spec/95_test_vectors.md. -/
def k2Bytes : List Byte :=
    [0x41, 0x42, 0x43, 0x44, 0x45, 0x46, 0x47, 0x48, 0x49, 0x4A, 0x4B, 0x4C, 0x4D, 0x4E, 0x4F, 0x50] ++
    [0x51, 0x52, 0x53, 0x54, 0x55, 0x56, 0x57, 0x58, 0x59, 0x5A, 0x61, 0x62, 0x63, 0x64, 0x65, 0x66] ++
    [0x67, 0x68, 0x69, 0x6A, 0x6B, 0x6C, 0x6D, 0x6E, 0x6F, 0x70, 0x71, 0x72, 0x73, 0x74, 0x75, 0x76] ++
    [0x77, 0x78, 0x79, 0x7A, 0x30, 0x31, 0x32, 0x33, 0x34, 0x35, 0x36, 0x37, 0x38, 0x39, 0x2B, 0x2F]

/-- Key K1: `K1[j] = j`. -/
def k1Bytes : List Byte := (List.range 64).map (BitVec.ofNat 8)

/-- A key store that holds these bytes. -/
def keyOf (l : List Byte) : Key := Vector.ofFn fun j => l.getD j.val 0

/-- A state with key K2 loaded. -/
def state2 (d : Dir) (p : Phase) (prev : Block) : State :=
  { State.reset with key := keyOf k2Bytes, keylen := 64, dir := d, phase := p, prev := prev }

/-- The state after an operation, seen through `f`. -/
def after {α : Type} (f : State → α) (r : Result) : Option α :=
  match r with
  | .next t => some (f t)
  | .fault _ => none
  | .refused _ => none

/-- The refusal of an operation. -/
def refusalOf (r : Result) : Option Refusal :=
  match r with
  | .next _ => none
  | .fault _ => none
  | .refused x => some x

/-- The core fields a test looks at. -/
def view (s : State) : Phase × Cause × BitVec 64 × List Byte × List Byte := (s.phase, s.cause, s.count, s.blk.toList, s.prev.toList)

/-- What a decoder answers, without the reason of a rejection. -/
def decoded (bs : List Byte) : Option Instr := (decode bs).toOption

/-! Blocks of the vectors V3, V7, V11. -/

def ivStar : Block := #v[0xDE, 0xAD, 0xBE, 0xEF, 0x01, 0x23, 0x45, 0x67]
def e0 : Block := #v[0x95, 0xF8, 0xD3, 0x84, 0x2F, 0x09, 0x7E, 0x45]
def e1 : Block := #v[0xEE, 0x9C, 0x8C, 0xDC, 0x35, 0x16, 0x73, 0x50]
def p1 : Block := #v[0x30, 0x31, 0x32, 0x33, 0x34, 0x35, 0x36, 0x37]
def b0 : Block := #v[0x00, 0x01, 0x02, 0x03, 0x04, 0x05, 0x06, 0x07]
def bx : Block := #v[0x4B, 0x54, 0x6F, 0x68, 0x2A, 0x2F, 0x3D, 0x25]
def m2 : Block := #v[0x4B, 0x55, 0x6D, 0x6B, 0x2E, 0x2A, 0x3B, 0x22]

/-! ### Well-formedness: an ill-formed term for each check -/

theorem test_wf_refuses_enc_tail_of_0_and_8 : Instr.wf (.ceEncTail []) = false ∧ Instr.wf (.ceEncTail e0.toList) = false := by decide
theorem test_wf_refuses_dec_tail_of_0_and_8 : Instr.wf (.ceDecTail []) = false ∧ Instr.wf (.ceDecTail e0.toList) = false := by decide
theorem test_wf_refuses_write_of_0_and_9 : Instr.wf (.sfWrite []) = false ∧ Instr.wf (.sfWrite (0 :: e0.toList)) = false := by decide
theorem test_wf_refuses_short_read_of_8 : Instr.wf (.sfFault (.shortFirstRead e0.toList)) = false := by decide
theorem test_wf_accepts_the_bounds :
    Instr.wf (.ceEncTail [1]) = true ∧ Instr.wf (.ceDecTail [1, 2, 3, 4, 5, 6, 7]) = true ∧ Instr.wf (.sfWrite [1]) = true ∧
    Instr.wf (.sfWrite e0.toList) = true ∧ Instr.wf (.sfFault (.shortFirstRead [])) = true := by decide
theorem test_ill_formed_is_refused : refusalOf (exec (.ceEncTail []) State.reset) = some (.illFormed "CE.ENC.TAIL") := by decide

/-! ### Decoding: a word for every constructor, written out from R84, R85, R90 and the tags of Decode.lean -/

theorem test_decode_rf : decoded [0b10000000, 0x07, 0x44] = some (.rf 0x07 0x44) := by decide
theorem test_decode_frE : decoded [0b01001111] = some (.frE 15) := by decide
theorem test_decode_frD : decoded [0b01010011] = some (.frD 3) := by decide
theorem test_decode_btEnc : decoded [0b01100000] = some (.btEnc) := by decide
theorem test_decode_btDec : decoded [0b01100001] = some (.btDec) := by decide
theorem test_decode_ksLoad : decoded [0b10000001, 0x41, 0x42, 0x43] = some (.ksLoad [0x41, 0x42, 0x43]) := by decide
theorem test_decode_ksCheck : decoded [0b10000010] = some (.ksCheck) := by decide
theorem test_decode_ksView : decoded [0b10100110] = some (.ksView 6) := by decide
theorem test_decode_ceIvgen : decoded [0b00010000] = some (.ceIvgen) := by decide
theorem test_decode_ceEncFull : decoded [0b00001000, 0x30, 0x31, 0x32, 0x33, 0x34, 0x35, 0x36, 0x37] = some (.ceEncFull p1) := by decide
theorem test_decode_ceEncTail : decoded [0b00000010, 0x38, 0x39] = some (.ceEncTail [0x38, 0x39]) := by decide
theorem test_decode_ceIvload : decoded [0b00111000, 0x95, 0xF8, 0xD3, 0x84, 0x2F, 0x09, 0x7E, 0x45] = some (.ceIvload e0) := by decide
theorem test_decode_ceDecFull : decoded [0b00101000, 0xEE, 0x9C, 0x8C, 0xDC, 0x35, 0x16, 0x73, 0x50] = some (.ceDecFull e1) := by decide
theorem test_decode_ceDecTail : decoded [0b00100010, 0x9D, 0xF0] = some (.ceDecTail [0x9D, 0xF0]) := by decide
theorem test_decode_start : decoded [0b01100101] = some (.start .decrypt) := by decide
theorem test_decode_sfRead : decoded [0b10000011] = some (.sfRead) := by decide
theorem test_decode_sfWrite : decoded [0b10010001, 0x9D, 0xF0] = some (.sfWrite [0x9D, 0xF0]) := by decide
theorem test_decode_sfStepSeed : decoded [0b01100011] = some (.sfStepSeed) := by decide
theorem test_decode_sfStepStream : decoded [0b01100010] = some (.sfStepStream) := by decide
theorem test_decode_sfEnd : decoded [0b00100000] = some (.sfEnd .decrypt) := by decide
theorem test_decode_sfFault : decoded [0b00110101, 0x95, 0xF8, 0xD3, 0x84, 0x2F] = some (.sfFault (.shortFirstRead [0x95, 0xF8, 0xD3, 0x84, 0x2F])) := by decide
theorem test_decode_sfFaultRaised : decoded [0b10110010] = some (.sfFault (.raised .entropySource)) := by decide
theorem test_decode_sr : decoded [0b10000100] = some (.sr) := by decide

/-- R91: `LEN` in 9..15 cannot arise; a wrong number of operand bytes and an unused first byte are rejected by name. -/
theorem test_decode_rejects :
    decode [0b00001001] = .error (.selReserved 0b001001) ∧ decode [0b00001000, 0x30] = .error (.operandCount 0b00001000 1) ∧
    decode [0b11000000] = .error (.noSuchSpace 0b11000000) ∧ decode [] = .error .empty := by decide

/-- Words of opcode_table.json: `CE.IVLOAD` 0x38, `SF.FAULT` 0x30, `CE.ENC.TAIL` with `LEN = 1`; operand bytes are zeros. -/
theorem test_table_words :
    decodeTableWord 8 0x38 = some (.ceIvload (Vector.replicate 8 0)) ∧ decodeTableWord 8 0x30 = some (.sfFault (.shortFirstRead [])) ∧
    decodeTableWord 8 0x01 = some (.ceEncTail [0]) ∧ decodeTableWord 8 0x20 = some (.sfEnd .decrypt) := by decide
theorem test_fetch_word_runs_next :
    after view (step (State.reset.withFetchWord 8 0x38)) = after view (exec (.ceIvload (Vector.replicate 8 0)) State.reset) := by decide

/-! ### One operation each, expected values from spec/95_test_vectors.md -/

/-- V2. -/
theorem test_rf : after (·.ret) (exec (.rf 0x07 0x44) State.reset) = some (.byte 0x44) := by decide
/-- R111, example; V3, first row. -/
theorem test_frE : after (·.blk.toList) (exec (.frE 0) { state2 .encrypt .idle b0 with blk := b0 }) = some [0x04, 0x05, 0x06, 0x07, 0x41, 0x43, 0x41, 0x47] := by decide
/-- V3, last row. -/
theorem test_frE_last : after (·.blk.toList) (exec (.frE 15) { state2 .encrypt .idle b0 with blk := #v[0x12, 0x16, 0x16, 0x0A, 0x4B, 0x54, 0x6F, 0x68] }) = some bx.toList := by decide
/-- R113, example; V4, first row. -/
theorem test_frD : after (·.blk.toList) (exec (.frD 15) { state2 .encrypt .idle b0 with blk := bx }) = some [0x12, 0x16, 0x16, 0x0A, 0x4B, 0x54, 0x6F, 0x68] := by decide
/-- V4, second row: the cursor is 56, a step of 4 (90_conflicts.md C1). -/
theorem test_frD_cursor :
    after (fun t => (t.cursor, t.blk.toList)) (exec (.frD 14) { state2 .encrypt .idle b0 with blk := #v[0x12, 0x16, 0x16, 0x0A, 0x4B, 0x54, 0x6F, 0x68] }) =
      some (56, [0x7F, 0x61, 0x59, 0x5F, 0x12, 0x16, 0x16, 0x0A]) := by decide
/-- V3. -/
theorem test_btEnc : after (·.blk.toList) (exec .btEnc { state2 .encrypt .idle b0 with blk := b0 }) = some bx.toList := by decide
/-- V5, key K5 (`K5[0] = A5`, `K5[7] = 3C`). -/
theorem test_btEnc_k5 :
    after (·.blk.toList) (exec .btEnc { State.reset with key := keyOf [0xA5, 0, 0, 0, 0, 0, 0, 0x3C], blk := b0 }) = some [0xA5, 0x01, 0x02, 0x03, 0x04, 0x05, 0x06, 0x3B] := by
  decide
/-- V4. -/
theorem test_btDec : after (·.blk.toList) (exec .btDec { state2 .encrypt .idle b0 with blk := bx }) = some b0.toList := by decide
/-- V6: K1 in `IDLE`. -/
theorem test_ksLoad :
    after (fun t => (t.keylen, t.key.toList, t.phase)) (exec (.ksLoad k1Bytes) State.reset) = some (64, k1Bytes, .idle) := by decide
/-- V6: 65 bytes, the first 64 stored; while busy refused. -/
theorem test_ksLoad_65_and_busy :
    after (fun t => (t.keylen, t.key.toList)) (exec (.ksLoad (k2Bytes ++ [0xFF])) State.reset) = some (65, k2Bytes) ∧
    after (fun t => (t.keylen, t.key.toList)) (exec (.ksLoad k1Bytes) (state2 .encrypt .stream e0)) = some (64, k2Bytes) := by decide
/-- V6. -/
theorem test_ksCheck :
    after view (exec .ksCheck (state2 .encrypt .idle e0)) = some (view (state2 .encrypt .idle e0)) ∧
    after (fun t => (t.phase, t.cause)) (exec .ksCheck { state2 .encrypt .idle e0 with keylen := 63 }) = some (.fail, .keyLengthError) := by decide
/-- V6: `KS.VIEW(6)` with K2. -/
theorem test_ksView : after (·.ret) (exec (.ksView 6) (state2 .encrypt .idle e0)) = some (.roundKey #v[0x59, 0x5A, 0x61, 0x62]) := by decide
/-- V7, K2. -/
theorem test_ceIvgen :
    after view (exec .ceIvgen { state2 .encrypt .seed b0 with rngQ := [some (chunkOfBlock ivStar)], outQ := [some .ok] }) =
      some (.stream, .none, 0, e0.toList, e0.toList) := by decide
/-- V7: `Rand(7, …)`. -/
theorem test_ceIvgen_short_draw :
    after (fun t => (t.phase, t.cause, t.prev.toList, t.outQ)) (exec .ceIvgen
        { state2 .encrypt .seed b0 with rngQ := [some ⟨[0xDE, 0xAD, 0xBE, 0xEF, 0x01, 0x23, 0x45], by decide⟩], outQ := [some .ok] }) =
      some (.fail, .entropySourceError, b0.toList, [some .ok]) := by decide
/-- V11, row 1. -/
theorem test_ceEncFull :
    after view (exec (.ceEncFull p1) { state2 .encrypt .stream e0 with outQ := [some .ok] }) = some (.stream, .none, 8, e1.toList, e1.toList) ∧
    after (·.log) (exec (.ceEncFull p1) { state2 .encrypt .stream e0 with outQ := [some .ok] }) = some [.write e1.toList .ok] := by decide
/-- V11, last row, and V16: the count wraps. -/
theorem test_ceEncFull_short_write_and_wrap :
    after view (exec (.ceEncFull p1) { state2 .encrypt .stream e0 with outQ := [some (.short 5)] }) =
      some (.fail, .ioError, 0, e1.toList, e0.toList) ∧
    after (·.count) (exec (.ceEncFull p1) { state2 .encrypt .stream e0 with count := 0xFFFFFFFFFFFFFFFC, outQ := [some .ok] }) = some 4 := by decide
/-- V11, row 3. -/
theorem test_ceEncTail :
    after view (exec (.ceEncTail [0x38, 0x39]) { state2 .encrypt .stream e1 with outQ := [some .ok] }) =
      some (.done, .none, 2, [0x9D, 0xF0, 0xE1, 0xB7, 0x1B, 0x3C, 0x48, 0x72], e1.toList) ∧
    after (·.log) (exec (.ceEncTail [0x38, 0x39]) { state2 .encrypt .stream e1 with outQ := [some .ok] }) = some [.write [0x9D, 0xF0] .ok] := by decide
/-- V7, decrypt. -/
theorem test_ceIvload :
    after view (exec (.ceIvload e0) (state2 .decrypt .seed b0)) = some (.stream, .none, 0, State.reset.blk.toList, e0.toList) := by decide
/-- V11, row 4. -/
theorem test_ceDecFull :
    after view (exec (.ceDecFull e1) { state2 .decrypt .stream e0 with outQ := [some .ok] }) = some (.stream, .none, 8, p1.toList, e1.toList) ∧
    after (fun t => (t.ct.toList, t.log)) (exec (.ceDecFull e1) { state2 .decrypt .stream e0 with outQ := [some .ok] }) =
      some (e1.toList, [.write p1.toList .ok]) := by decide
/-- V11, row 5: no transform of the tail. -/
theorem test_ceDecTail :
    after view (exec (.ceDecTail [0x9D, 0xF0]) { state2 .decrypt .stream e1 with outQ := [some .ok] }) =
      some (.done, .none, 2, [0x73, 0x6C, 0x8C, 0xDC, 0x35, 0x16, 0x73, 0x50], e1.toList) ∧
    after (·.log) (exec (.ceDecTail [0x9D, 0xF0]) { state2 .decrypt .stream e1 with outQ := [some .ok] }) = some [.write [0x73, 0x6C] .ok] := by
  decide
/-- R160, example; `CAUSE` and `COUNT` are cleared. -/
theorem test_start :
    after (fun t => (t.dir, t.count, t.cause, t.phase)) (exec (.start .decrypt)
        { state2 .encrypt .fail e0 with cause := .ioError, count := 8 }) = some (.decrypt, 0, .none, .seed) := by decide
/-- V6, V13: straight after reset, `STATUS = 0C` and `2C`. -/
theorem test_start_bad_key :
    after State.status (exec (.start .encrypt) State.reset) = some 0x0C ∧ after State.status (exec (.start .decrypt) State.reset) = some 0x2C := by
  decide
/-- R161. -/
theorem test_sfRead :
    after (fun t => (t.ret, t.inQ)) (exec .sfRead { State.reset with inQ := [some (.data ⟨[0x38, 0x39], by decide⟩)] }) =
      some (.chunk ⟨[0x38, 0x39], by decide⟩, []) := by decide
theorem test_sfRead_error_and_silence :
    after (fun t => (t.phase, t.cause)) (exec .sfRead { State.reset with inQ := [some .err] }) = some (.fail, .ioError) ∧
    after (·.pending) (exec .sfRead State.reset) = some (some (.read .bare)) := by decide
/-- R162: `Ok`, and `Short(0)`. -/
theorem test_sfWrite :
    after (·.log) (exec (.sfWrite e0.toList) { State.reset with outQ := [some .ok] }) = some [.write e0.toList .ok] ∧
    after (fun t => (t.phase, t.cause)) (exec (.sfWrite [1]) { State.reset with outQ := [some (.short 0)] }) = some (.fail, .ioError) := by decide
/-- R163, example. -/
theorem test_sfStepSeed :
    after view (exec .sfStepSeed { state2 .decrypt .seed b0 with inQ := [some (.data (chunkOfBlock e0))] }) =
      some (.stream, .none, 0, State.reset.blk.toList, e0.toList) := by decide
/-- V14: a first read of 3 bytes. -/
theorem test_sfStepSeed_short :
    after (fun t => (t.phase, t.cause, t.log.length)) (exec .sfStepSeed
        { state2 .decrypt .seed b0 with inQ := [some (.data ⟨[0x95, 0xF8, 0xD3], by decide⟩)] }) = some (.fail, .ioError, 1) := by decide
/-- V12: `Data(8, b)` and `Data(1, b)` in the decrypt direction; V15's tail of 5 bytes. -/
theorem test_sfStepStream :
    after view (exec .sfStepStream { state2 .decrypt .stream e0 with inQ := [some (.data (chunkOfBlock e1))], outQ := [some .ok] }) =
      some (.stream, .none, 8, p1.toList, e1.toList) ∧
    after (·.log.head?) (exec .sfStepStream
        { state2 .decrypt .stream #v[0x10, 0x11, 0x12, 0x13, 0x14, 0x15, 0x16, 0x17] with
          inQ := [some (.data ⟨[0x18, 0x19, 0x1A, 0x1B, 0x1C], by decide⟩)], outQ := [some .ok] }) = some (some (.write [8, 8, 8, 8, 8] .ok)) := by
  decide
/-- R164, example: the empty read. -/
theorem test_sfStepStream_end :
    after (fun t => (t.phase, t.cause, t.outQ)) (exec .sfStepStream
        { state2 .encrypt .stream e0 with inQ := [some (.data ⟨[], by decide⟩)], outQ := [some .ok] }) = some (.done, .none, [some .ok]) := by decide
/-- R165, example. -/
theorem test_sfEnd : after (fun t => (t.phase, t.count)) (exec (.sfEnd .encrypt) { state2 .encrypt .stream e1 with count := 8 }) = some (.done, 8) := by
  decide
/-- V13: `STATUS` after an entropy failure and after an I/O failure of the decrypt direction. -/
theorem test_sfFault :
    after State.status (exec (.sfFault (.raised .entropySource)) (state2 .encrypt .seed e0)) = some 0x14 ∧
    after State.status (exec (.sfFault (.shortFirstRead [0x95])) (state2 .decrypt .seed e0)) = some 0x3C := by decide
/-- R171, example: `STATUS = 03`, `COUNT = 10`. -/
theorem test_sr : after (·.ret) (exec .sr { state2 .encrypt .done e1 with count := 10 }) = some (.status 0x03 10) := by decide
/-- V13: the status byte of the running phases. -/
theorem test_sr_status_codes :
    (state2 .encrypt .seed e0).status = 0x01 ∧ (state2 .decrypt .stream e0).status = 0x22 ∧ (state2 .decrypt .done e0).status = 0x23 := by decide
/-- R211: a reset while a write waits. -/
theorem test_reset :
    after (fun t => (t.phase, t.keylen, t.pending, t.log)) (step
        { state2 .encrypt .stream e0 with sched := [.reset], pending := some (.write e1.toList .encFull) }) =
      some (.idle, 0, none, [.reset, .dropped e1.toList]) := by decide
/-- R211: a reset when the block has been computed and its write not yet issued: nothing was offered to the sink. -/
theorem test_reset_before_the_write :
    after (·.log) (step { state2 .encrypt .stream e0 with sched := [.reset], pending := some (.offer e1.toList .encFull) }) = some [.reset] := by
  decide
/-- R7: after an empty read has been answered `STATUS` still shows `STREAM`; the next step of the core is `SF.END`. -/
theorem test_read_is_a_step :
    after (fun t => (t.status, t.inQ, t.log)) (step { state2 .decrypt .stream e0 with inQ := [some (.data (chunkAt [] 0))] }) =
      some (0x22, [], [.read (.data (chunkAt [] 0))]) := by decide
theorem test_end_is_the_next_step :
    after (fun t => (t.status, t.pending)) (step { state2 .decrypt .stream e0 with pending := some (.readDone .stepStream (.data (chunkAt [] 0))) }) =
      some (0x23, none) := by decide
/-- R87. -/
theorem test_pad8 : (pad8 [0x38, 0x39]).toList = [0x38, 0x39, 0x00, 0x00, 0x00, 0x00, 0x00, 0x00] := by decide
/-- The mask of K2. -/
theorem test_keyMask : keyMask (keyOf k2Bytes) = m2 := by decide

/-! ### Witnesses: a concrete input that meets the hypotheses of each statement that has some -/

/-- The write of the IV block waits; its port is silent for one step and then answers `Ok`. -/
def waitingWrite : State :=
  { state2 .encrypt .seed b0 with
    blk := e0, pending := some (.write e0.toList .ivgen), outQ := [none, some .ok], log := [.draw (chunkOfBlock ivStar), .started .encrypt] }

/-- The same, its port answering `Ok` now. -/
def answeredWrite : State := { waitingWrite with outQ := [some .ok] }

/-- A draw waits and the entropy port never answers. -/
def waitingDraw : State := { state2 .encrypt .seed b0 with pending := some .draw, log := [.started .encrypt] }

/-- The first read of the decrypt direction waits. -/
def waitingRead : State := { state2 .decrypt .seed b0 with pending := some (.read .stepSeed), inQ := [none], log := [.started .decrypt] }

/-- The write of the IV block has returned `Ok`; the end of `CE.IVGEN` comes next. -/
def writtenIv : State :=
  { state2 .encrypt .seed b0 with
    blk := e0, pending := some (.written e0.toList .ivgen .ok), log := [.write e0.toList .ok, .draw (chunkOfBlock ivStar), .started .encrypt] }

/-- The first read of the decrypt direction has been answered; `CE.IVLOAD` comes next. -/
def readIv : State :=
  { state2 .decrypt .seed b0 with
    pending := some (.readDone .stepSeed (.data (chunkOfBlock e0))), log := [.read (.data (chunkOfBlock e0)), .started .decrypt] }

/-- The write of `CE.DEC.FULL` (V11, row 4) has returned `Ok`; its end comes next. -/
def writtenPlain : State :=
  { state2 .decrypt .stream e0 with
    blk := p1, ct := e1, pending := some (.written p1.toList .decFull .ok)
    log := [.write p1.toList .ok, .read (.data (chunkOfBlock e1)), .read (.data (chunkOfBlock e0)), .started .decrypt] }

/-- An encrypt run of the empty input has ended. -/
def doneState : State := { state2 .encrypt .done e0 with log := [.write e0.toList .ok, .started .encrypt] }

/-- A `START` was refused its key. -/
def badKeyState : State := { state2 .decrypt .fail b0 with cause := .keyLengthError, keylen := 63, log := [.started .decrypt] }

/-- After a key was loaded, with `START 0` scheduled. -/
def loadedState : State := { state2 .encrypt .idle b0 with sched := [.start .encrypt] }

theorem waitingWrite_inv : RunInv waitingWrite := by
  constructor <;>
    simp [waitingWrite, state2, State.reset, noSelect, Phase.busy, pendingFits, chainFits, countFits, writeFits, acceptedBytes,
      runOut]

theorem answeredWrite_inv : RunInv answeredWrite := by
  constructor <;>
    simp [answeredWrite, waitingWrite, state2, State.reset, noSelect, Phase.busy, pendingFits, chainFits, countFits, writeFits,
      acceptedBytes, runOut]

theorem writtenIv_inv : RunInv writtenIv := by
  constructor <;>
    simp [writtenIv, state2, State.reset, noSelect, Phase.busy, pendingFits, chainFits, countFits, writeFits, acceptedBytes,
      runOut]

theorem readIv_inv : RunInv readIv := by
  constructor <;>
    simp [readIv, state2, State.reset, noSelect, Phase.busy, pendingFits, chainFits, countFits, readFits, acceptedBytes, runOut]

theorem writtenPlain_inv : RunInv writtenPlain := by
  constructor <;>
    simp [writtenPlain, state2, State.reset, noSelect, Phase.busy, pendingFits, chainFits, countFits, writeFits, acceptedBytes,
      chunkInHand, lastFullRead, runOut, chunkOfBlock, Chunk.len, addCount]

theorem waitingDraw_inv : RunInv waitingDraw := by
  constructor <;>
    simp [waitingDraw, state2, State.reset, noSelect, Phase.busy, pendingFits, chainFits, countFits, acceptedBytes, runOut]

theorem waitingRead_inv : RunInv waitingRead := by
  constructor <;>
    simp [waitingRead, state2, State.reset, noSelect, Phase.busy, pendingFits, chainFits, countFits, readFits, acceptedBytes,
      runOut]

theorem doneState_inv : RunInv doneState := by
  constructor <;>
    simp [doneState, state2, State.reset, noSelect, Phase.busy, pendingFits, chainFits, countFits, runOut]

theorem badKeyState_inv : RunInv badKeyState := by
  constructor <;>
    simp [badKeyState, state2, State.reset, noSelect, Phase.busy, pendingFits, chainFits, countFits, runOut]

theorem loadedState_inv : RunInv loadedState := by
  constructor <;>
    simp [loadedState, state2, State.reset, noSelect, Phase.busy, pendingFits, chainFits, countFits]

theorem wit_DecodeOfEncodeIsIdentity :
    (Instr.ceEncTail [0x38]).wf = true ∧ (Instr.ceDecTail (List.replicate 7 0x38)).wf = true ∧ (Instr.sfWrite e0.toList).wf = true := by decide

theorem wit_DecodedIsWellFormedAndCanonical :
    (∃ i, decode [0b00000001, 0x38] = .ok i ∧ i ≠ .ceIvgen) ∧ (∃ i, decode [0b00011111] = .ok i ∧ i = .ceIvgen) :=
  ⟨⟨.ceEncTail [0x38], by decide, by decide⟩, ⟨.ceIvgen, by decide, rfl⟩⟩

theorem wit_SelectorMapIsUnambiguous : selLen 0b001000 ≤ 8 ∧ 8 < selLen 0b011001 ∧ selectSel 0b001001 = none := by decide

theorem wit_StepRunsDecodedOperation :
    (∃ i, decode [0b00100010, 0x9D, 0xF0] = .ok i) ∧ ({ State.reset with sched := [.select [0b00100010, 0x9D, 0xF0]] } : State).sched =
      .select [0b00100010, 0x9D, 0xF0] :: [] ∧ (∃ i, decodeTableWord 8 0x38 = some i) :=
  ⟨⟨.ceDecTail [0x9D, 0xF0], by decide⟩, rfl, ⟨.ceIvload (Vector.replicate 8 0), by decide⟩⟩

theorem wit_StepRunsHostActionsAndTheSequencer :
    (∃ (s : State) (q : List Slot), s.sched = .load k2Bytes :: q) ∧ (∃ (s : State) (q : List Slot), s.sched = .start .decrypt :: q) ∧
    (∃ (s : State) (q : List Slot), s.sched = .sr :: q) ∧
    (∃ (s : State) (q : List Slot), s.sched = .core :: q ∧ s.pending = none ∧ s.phase.busy = false) ∧
    (∃ s : State, s.sched = [] ∧ s.pending = none ∧ s.phase.busy = false) ∧
    (∃ s : State, s.pending = none ∧ s.phase = .seed) ∧ (∃ s : State, s.pending = none ∧ s.phase = .stream) :=
  ⟨⟨{ State.reset with sched := [.load k2Bytes] }, [], rfl⟩, ⟨{ State.reset with sched := [.start .decrypt] }, [], rfl⟩,
    ⟨{ State.reset with sched := [.sr] }, [], rfl⟩, ⟨{ State.reset with sched := [.core] }, [], rfl, rfl, rfl⟩,
    ⟨State.reset, rfl, rfl, rfl⟩, ⟨state2 .encrypt .seed b0, rfl, rfl⟩, ⟨state2 .encrypt .stream e0, rfl, rfl⟩⟩

theorem wit_SfStepPerformsTheSelectedOperation :
    ({ state2 .decrypt .seed b0 with inQ := [some (.data (chunkOfBlock e0))] } : State).inQ = some (.data (chunkOfBlock e0)) :: [] ∧
    ({ state2 .decrypt .seed b0 with inQ := [some (.data (chunkOfBlock e0))] } : State).dir = .decrypt := ⟨rfl, rfl⟩

theorem wit_EveryOperationAnswersANextState : (Instr.ceDecTail [0x9D, 0xF0]).wf = true ∧ (Instr.sfWrite []).wf = false := by decide

theorem wit_StepNeverStopsInARun : headNotSelect loadedState := fun _ _ h => by simp [loadedState] at h

theorem wit_LanesAreIndependent :
    [3, 1, 0, 2].Perm ([0, 1, 2, 3] : List (Fin 4)) ∧ (∃ t, exec (.frE 5) (state2 .encrypt .idle b0) = .next t) ∧
    (∃ t, exec (.frD 5) (state2 .decrypt .idle b0) = .next t) := ⟨by decide, ⟨_, rfl⟩, ⟨_, rfl⟩⟩

/-- Two states that differ in lane 1 and agree in lane 3. -/
theorem wit_LanesAreIndependent_transform :
    ∃ s s' : State, s.blk ≠ s'.blk ∧ s.blk[3] = s'.blk[3] ∧ s.blk[4 + 3] = s'.blk[4 + 3] ∧
      ∀ (r : Nat) (hr : r < 16), s.key[4 * r + 3] = s'.key[4 * r + 3] :=
  ⟨{ State.reset with blk := b0 }, { State.reset with blk := b0.set 1 0xFF }, by decide, by decide, by decide, fun _ _ => rfl⟩

theorem wit_KsLoadStoresTheKey : (state2 .encrypt .fail b0).phase.busy = false ∧ 62 < (k2Bytes.take 63).length ∧ (k2Bytes.take 63).length ≤ 63 := by
  decide

theorem wit_HostCommandsAreRefusedWhileBusy :
    (state2 .encrypt .seed b0).phase.busy = true ∧ (state2 .decrypt .stream b0).phase.busy = true := by decide

theorem wit_KeyIsWrittenOnlyByLoadAndReset :
    (∃ t, exec (.start .encrypt) (state2 .encrypt .idle b0) = .next t) ∧ (∀ key, Instr.start .encrypt ≠ .ksLoad key) ∧
    headNotSelect loadedState ∧ (∃ t, step loadedState = .next t) :=
  ⟨⟨_, rfl⟩, fun _ => by simp, wit_StepNeverStopsInARun, ⟨_, rfl⟩⟩

theorem wit_KsCheckPassesExactly64Bytes : (state2 .encrypt .idle b0).keylen = 64 ∧ badKeyState.keylen ≠ 64 := by decide

theorem wit_KsViewReturnsTheRoundKey : keyIndex 15 3 = 63 ∧ keyIndex 0 0 = 0 := by decide

/-- A core about to run `CE.IVGEN` with a full draw and an accepted, and with a failed, write. -/
theorem wit_CeIvgenEmitsTheTransformedIv :
    (∃ s : State, s.rngQ = some (chunkOfBlock ivStar) :: [] ∧ s.outQ = some .ok :: []) ∧
    (∃ s : State, s.rngQ = some (chunkOfBlock ivStar) :: [] ∧ s.outQ = some (.short 3) :: [] ∧ OutAnswer.short 3 ≠ .ok) :=
  ⟨⟨{ state2 .encrypt .seed b0 with rngQ := [some (chunkOfBlock ivStar)], outQ := [some .ok] }, rfl, rfl⟩,
    ⟨{ state2 .encrypt .seed b0 with rngQ := [some (chunkOfBlock ivStar)], outQ := [some (.short 3)] }, rfl, rfl, by decide⟩⟩

theorem wit_ShortDrawRaisesEntropySourceError :
    ∃ (s : State) (c : Chunk), s.rngQ = some c :: [] ∧ c.len < 8 ∧ c.len = 7 :=
  ⟨{ state2 .encrypt .seed b0 with rngQ := [some ⟨ivStar.toList.take 7, by decide⟩] }, ⟨ivStar.toList.take 7, by decide⟩, rfl, by decide, by decide⟩

/-- For `CeEncFullChainsAndEmits` and `CeDecFullUnchainsAndEmits`. -/
theorem wit_full_chunk_operations :
    ({ state2 .encrypt .stream e0 with outQ := [some .ok] } : State).outQ = some .ok :: [] ∧
    ({ state2 .decrypt .stream e0 with outQ := [some .err] } : State).outQ = some .err :: [] ∧ OutAnswer.err ≠ .ok := by decide

/-- For `CeEncTailEmitsTheUnpaddedBytes` and `CeDecTailXorsOnly`, at both bounds. -/
theorem wit_tail_operations :
    1 ≤ [(0x38 : Byte)].length ∧ [(0x38 : Byte)].length ≤ 7 ∧ 1 ≤ (p1.toList.take 7).length ∧ (p1.toList.take 7).length ≤ 7 ∧
    ({ state2 .encrypt .stream e0 with outQ := [some .ok] } : State).outQ = some .ok :: [] := by decide

theorem wit_CeDecTailIgnoresTheKey : ∃ t, exec (.ceDecTail [0x9D, 0xF0]) (state2 .decrypt .stream e1) = .next t := ⟨_, rfl⟩

theorem wit_FailedWriteAborts :
    (OutAnswer.short 5 ≠ .ok ∧ OutAnswer.err ≠ .ok) ∧ (Instr.ceEncTail [0x38]).wf = true ∧ (Instr.ceEncFull p1).wf = true ∧
    (Instr.ceDecFull e1).wf = true ∧ (Instr.ceDecTail [0x9D]).wf = true ∧
    ({ state2 .encrypt .stream e0 with outQ := [some (.short 5)] } : State).outQ = some (.short 5) :: [] := by decide

/-- A draw, a read and a write that wait, with the port silent for good or for one step. -/
theorem wit_SilentPortHoldsTheCore :
    (RunInv waitingDraw ∧ waitingDraw.sched = [] ∧ waitingDraw.pending = some .draw ∧ waitingDraw.rngQ.head? = none) ∧
    (RunInv waitingRead ∧ waitingRead.sched = [] ∧ waitingRead.pending = some (.read .stepSeed) ∧ waitingRead.inQ.head? = some none) ∧
    (RunInv waitingWrite ∧ waitingWrite.sched = [] ∧ waitingWrite.pending = some (.write e0.toList .ivgen) ∧
      waitingWrite.outQ.head? = some none) :=
  ⟨⟨waitingDraw_inv, rfl, rfl, rfl⟩, ⟨waitingRead_inv, rfl, rfl, rfl⟩, ⟨waitingWrite_inv, rfl, rfl, rfl⟩⟩

/-- One input for each clause; the last two waits are on a row of `SF.STEP`. -/
theorem wit_DelayedTransactionCompletesTheOperation :
    ((state2 .encrypt .stream e0).sched = [] ∧ (Instr.ceEncFull p1).wf = true ∧ (Instr.sfWrite e0.toList).wf = true ∧
      (Instr.ceDecTail [0x9D]).wf = true) ∧
    (∃ s : State, s.sched = [] ∧ s.rngQ = some (chunkOfBlock ivStar) :: []) ∧
    ((state2 .encrypt .stream e0).sched = [] ∧ (state2 .decrypt .seed b0).sched = [] ∧ (state2 .decrypt .seed b0).dir = .decrypt) :=
  ⟨by decide, ⟨{ state2 .encrypt .seed b0 with rngQ := [some (chunkOfBlock ivStar)] }, rfl, rfl⟩, ⟨rfl, rfl, rfl⟩⟩

theorem wit_StartBeginsAnOperation : loadedState.phase.busy = false ∧ loadedState.keylen = 64 := by decide

theorem wit_StartRejectsABadKeyLength :
    badKeyState.phase.busy = false ∧ badKeyState.keylen = 63 ∧ ({ badKeyState with keylen := 65 } : State).keylen ≠ 64 := by decide

theorem wit_SfReadReturnsTheChunk :
    (∃ (s : State) (c : Chunk), s.inQ = some (.data c) :: [] ∧ c.len = 0) ∧ (∃ s : State, s.inQ = some .err :: []) ∧
    (∃ s : State, s.inQ = none :: []) ∧ State.reset.inQ = [] :=
  ⟨⟨{ State.reset with inQ := [some (.data ⟨[], by decide⟩)] }, ⟨[], by decide⟩, rfl, rfl⟩, ⟨{ State.reset with inQ := [some .err] }, rfl⟩,
    ⟨{ State.reset with inQ := [none] }, rfl⟩, rfl⟩

theorem wit_SfWriteWritesAllOrFails :
    (1 ≤ [(1 : Byte)].length ∧ e0.toList.length ≤ 8) ∧ (∃ s : State, s.outQ = some .ok :: []) ∧
    (∃ (s : State) (a : OutAnswer), a ≠ .ok ∧ s.outQ = some a :: []) ∧ (∃ s : State, s.outQ = none :: []) ∧ State.reset.outQ = [] :=
  ⟨by decide, ⟨{ State.reset with outQ := [some .ok] }, rfl⟩, ⟨{ State.reset with outQ := [some .err] }, .err, by decide, rfl⟩,
    ⟨{ State.reset with outQ := [none] }, rfl⟩, rfl⟩

theorem wit_SfStepSeedPerformsTheIvStep :
    (state2 .encrypt .seed b0).dir = .encrypt ∧
    (∃ s : State, s.dir = .decrypt ∧ s.inQ = some (.data (chunkOfBlock e0)) :: []) ∧
    (∃ (s : State) (c : Chunk), s.dir = .decrypt ∧ c.len = 7 ∧ s.inQ = some (.data c) :: []) ∧
    (∃ s : State, s.dir = .decrypt ∧ s.inQ = some .err :: []) :=
  ⟨rfl, ⟨{ state2 .decrypt .seed b0 with inQ := [some (.data (chunkOfBlock e0))] }, rfl, rfl⟩,
    ⟨{ state2 .decrypt .seed b0 with inQ := [some (.data ⟨e0.toList.take 7, by decide⟩)] }, ⟨e0.toList.take 7, by decide⟩, rfl, by decide, rfl⟩,
    ⟨{ state2 .decrypt .seed b0 with inQ := [some .err] }, rfl, rfl⟩⟩

theorem wit_SfStepStreamPerformsOneIteration :
    (∃ s : State, s.outQ = some .ok :: [] ∧ s.inQ = some (.data (chunkOfBlock p1)) :: [] ∧ s.dir = .encrypt) ∧
    (∃ s : State, s.outQ = some .ok :: [] ∧ s.inQ = some (.data (chunkOfBlock e1)) :: [] ∧ s.dir = .decrypt) ∧
    (∃ (s : State) (c : Chunk), s.outQ = some .ok :: [] ∧ s.inQ = some (.data c) :: [] ∧ c.len = 1) ∧
    (∃ (s : State) (c : Chunk), s.outQ = some .ok :: [] ∧ s.inQ = some (.data c) :: [] ∧ c.len = 7) ∧
    (∃ (s : State) (c : Chunk), s.outQ = some .ok :: [] ∧ s.inQ = some (.data c) :: [] ∧ c.len = 0) ∧
    (∃ s : State, s.outQ = some .ok :: [] ∧ s.inQ = some .err :: []) :=
  ⟨⟨{ state2 .encrypt .stream e0 with outQ := [some .ok], inQ := [some (.data (chunkOfBlock p1))] }, rfl, rfl, rfl⟩,
    ⟨{ state2 .decrypt .stream e0 with outQ := [some .ok], inQ := [some (.data (chunkOfBlock e1))] }, rfl, rfl, rfl⟩,
    ⟨{ state2 .decrypt .stream e0 with outQ := [some .ok], inQ := [some (.data ⟨[0x9D], by decide⟩)] }, ⟨[0x9D], by decide⟩, rfl, rfl, rfl⟩,
    ⟨{ state2 .encrypt .stream e0 with outQ := [some .ok], inQ := [some (.data ⟨p1.toList.take 7, by decide⟩)] },
      ⟨p1.toList.take 7, by decide⟩, rfl, rfl, by decide⟩,
    ⟨{ state2 .encrypt .stream e0 with outQ := [some .ok], inQ := [some (.data ⟨[], by decide⟩)] }, ⟨[], by decide⟩, rfl, rfl, rfl⟩,
    ⟨{ state2 .encrypt .stream e0 with outQ := [some .ok], inQ := [some .err] }, rfl, rfl⟩⟩

theorem wit_SrReturnsStatusAndCount :
    doneState.phase = .done ∧ waitingDraw.phase = .seed ∧ writtenPlain.phase = .stream ∧ writtenPlain.dir = .decrypt ∧
    (∃ s : State, s.phase = .fail ∧ s.cause = .entropySourceError) ∧ (∃ s : State, s.phase = .fail ∧ s.cause = .ioError) ∧ (RunInv loadedState ∧ loadedState.phase = .idle) ∧
    (RunInv badKeyState ∧ badKeyState.phase = .fail ∧ badKeyState.cause = .keyLengthError) :=
  ⟨rfl, rfl, rfl, rfl, ⟨{ state2 .encrypt .fail b0 with cause := .entropySourceError }, rfl, rfl⟩,
    ⟨{ state2 .encrypt .fail b0 with cause := .ioError }, rfl, rfl⟩, ⟨loadedState_inv, rfl⟩, ⟨badKeyState_inv, rfl, rfl⟩⟩

/-- Two states that differ in the key, the buffers and the chain, and agree in all `SR` reads. -/
theorem wit_SrRevealsNoKeyOrBuffer :
    ∃ s s' : State, s.key ≠ s'.key ∧ s.blk ≠ s'.blk ∧ s.dir = s'.dir ∧ s.phase = s'.phase ∧ s.cause = s'.cause ∧ s.count = s'.count ∧
      s.freeCounter = s'.freeCounter ∧ (∃ t, exec .sr s = .next t) ∧ ∃ t', exec .sr s' = .next t' :=
  ⟨doneState, { doneState with key := keyOf k1Bytes, blk := b0, prev := bx }, by decide, by decide, rfl, rfl, rfl, rfl, rfl, ⟨_, rfl⟩, ⟨_, rfl⟩⟩

theorem wit_SfFaultRecordsTheCauseAndStops : (e0.toList.take 7).length ≤ 7 ∧ ([] : List Byte).length ≤ 7 := by decide

/-- A reset while a write waits, and while it has only been computed. -/
theorem wit_ResetGivesTheResetState :
    (({ waitingWrite with sched := [.reset] } : State).sched = .reset :: [] ∧ waitingWrite.pending = some (.write e0.toList .ivgen)) ∧
    (({ waitingWrite with sched := [.reset], pending := some (.offer e0.toList .ivgen) } : State).sched = .reset :: [] ∧
      ∀ v k, (some (.offer e0.toList .ivgen) : Option Pending) ≠ some (.write v k)) := ⟨⟨rfl, rfl⟩, rfl, fun _ _ => by simp⟩

theorem wit_NoTransactionWhileNotBusy :
    (RunInv doneState ∧ doneState.phase.busy = false ∧ ∃ t, step doneState = .next t) ∧
    (RunInv loadedState ∧ loadedState.phase.busy = false ∧ ∃ t, step loadedState = .next t) :=
  ⟨⟨doneState_inv, rfl, ⟨_, rfl⟩⟩, ⟨loadedState_inv, rfl, ⟨_, rfl⟩⟩⟩

/-- For `PhaseMovesAlongTheTable` and `StepKeepsTheRunInvariant`: a step that begins an operation, one that waits, one whose port answers, one
that ends an operation. -/
theorem wit_steps_of_a_run :
    (RunInv loadedState ∧ after (·.phase) (step loadedState) = some .seed) ∧
    (RunInv waitingWrite ∧ after (·.pending) (step waitingWrite) = some (some (.write e0.toList .ivgen))) ∧
    (RunInv answeredWrite ∧ after (·.pending) (step answeredWrite) = some (some (.written e0.toList .ivgen .ok))) ∧
    (RunInv writtenIv ∧ after (·.phase) (step writtenIv) = some .stream) :=
  ⟨⟨loadedState_inv, by decide⟩, ⟨waitingWrite_inv, by decide⟩, ⟨answeredWrite_inv, by decide⟩, ⟨writtenIv_inv, by decide⟩⟩

/-- A reset, `CE.IVLOAD`, and the ends of `CE.IVGEN` and `CE.DEC.FULL` change `PREV`. -/
theorem wit_PrevChangesOnlyAfterItsBlock :
    (RunInv { writtenPlain with sched := [.reset] } ∧ ∃ t, step { writtenPlain with sched := [.reset] } = .next t ∧ t.prev ≠ writtenPlain.prev) ∧
    (RunInv readIv ∧ ∃ t, step readIv = .next t ∧ t.prev ≠ readIv.prev) ∧
    (RunInv writtenIv ∧ ∃ t, step writtenIv = .next t ∧ t.prev ≠ writtenIv.prev) ∧
    (RunInv writtenPlain ∧ ∃ t, step writtenPlain = .next t ∧ t.prev ≠ writtenPlain.prev) :=
  ⟨⟨{ writtenPlain_inv with no_select := by simp [noSelect] }, ⟨_, rfl, by decide⟩⟩, ⟨readIv_inv, ⟨_, rfl, by decide⟩⟩,
    ⟨writtenIv_inv, ⟨_, rfl, by decide⟩⟩, ⟨writtenPlain_inv, ⟨_, rfl, by decide⟩⟩⟩

/-- A step of a run from two states that differ in `PREV`, `CT` and the hidden state, which are dead while the IV block waits to be written. -/
theorem wit_NoUnspecifiedValueIsEverRead :
    RunInv answeredWrite ∧ LiveAgree answeredWrite { answeredWrite with prev := bx, ct := p1, round := 9, cursor := 12 } ∧
    ∃ t, step answeredWrite = .next t :=
  ⟨answeredWrite_inv,
    ⟨rfl, fun _ => rfl, fun h => by simp [answeredWrite, waitingWrite, state2] at h, fun _ _ _ => rfl,
      fun _ h => by simp [writeOf, answeredWrite, waitingWrite, state2] at h⟩,
    ⟨_, rfl⟩⟩

theorem wit_StatusNeverShowsDecryptEntropyFailure :
    RunInv badKeyState ∧ waitingDraw.busyFlag = true ∧ doneState.doneFlag = true := ⟨badKeyState_inv, rfl, rfl⟩

/-- The ten bytes "0123456789" of the source's example. -/
def tenBytes : List Byte := [0x30, 0x31, 0x32, 0x33, 0x34, 0x35, 0x36, 0x37, 0x38, 0x39]

/-- P1: `START 0` with key K2, `IV*`, `WB(P)` and a sink that answers `Ok`. -/
def encryptStart (P : List Byte) : State :=
  { state2 .encrypt .idle b0 with
    sched := [.start .encrypt], rngQ := [some (chunkOfBlock ivStar)], inQ := wbAnswers P
    outQ := List.replicate (1 + payloadWrites P.length) (some .ok) }

/-- P2: `START 1` with key K2 and `WB(C)`. -/
def decryptStart (C : List Byte) : State :=
  { state2 .encrypt .idle b0 with
    sched := [.start .decrypt], inQ := wbAnswers C, outQ := List.replicate (payloadWrites (C.length - 8)) (some .ok) }

theorem encryptStart_ready (P : List Byte) : EncryptReady (encryptStart P) P ivStar := by
  constructor <;> first | rfl | exact ⟨[], by simp [encryptStart]⟩

theorem decryptStart_ready (C : List Byte) : DecryptReady (decryptStart C) C := by
  constructor <;> first | rfl | exact ⟨[], by simp [decryptStart]⟩

theorem wit_EncryptRunProducesTheStream : EncryptReady (encryptStart tenBytes) tenBytes ivStar := encryptStart_ready _

/-- The ciphertext of P1 has 18 bytes. -/
theorem wit_DecryptRunProducesThePlaintext :
    8 ≤ (e0.toList ++ e1.toList ++ [0x9D, 0xF0]).length ∧
    DecryptReady (decryptStart (e0.toList ++ e1.toList ++ [0x9D, 0xF0])) (e0.toList ++ e1.toList ++ [0x9D, 0xF0]) :=
  ⟨by decide, decryptStart_ready _⟩

/-- Both runs, with the same key; the closed form of P1's output is the one of spec/95_test_vectors.md. -/
theorem wit_StreamRoundTripWithItsCondition :
    EncryptReady (encryptStart tenBytes) tenBytes ivStar ∧
    encStream (keyOf k2Bytes) ivStar tenBytes = e0.toList ++ e1.toList ++ [0x9D, 0xF0] ∧
    DecryptReady (decryptStart (e0.toList ++ e1.toList ++ [0x9D, 0xF0])) (e0.toList ++ e1.toList ++ [0x9D, 0xF0]) ∧
    (decryptStart (e0.toList ++ e1.toList ++ [0x9D, 0xF0])).key = (encryptStart tenBytes).key :=
  ⟨encryptStart_ready _, by decide, decryptStart_ready _, rfl⟩

theorem wit_EmptyInputGivesTheIvBlockOnly :
    EncryptReady (encryptStart []) [] ivStar ∧ DecryptReady (decryptStart e0.toList) e0.toList := ⟨encryptStart_ready _, decryptStart_ready _⟩

theorem wit_ShortDecryptInputFails :
    (([] : List Byte).length < 8 ∧ DecryptReady (decryptStart []) []) ∧
    ((e0.toList.take 7).length < 8 ∧ DecryptReady (decryptStart (e0.toList.take 7)) (e0.toList.take 7)) :=
  ⟨⟨by decide, decryptStart_ready _⟩, ⟨by decide, decryptStart_ready _⟩⟩

/-- A draw, a read and a write whose port answers at the core's turn: issued now, waiting, and due. -/
theorem wit_EveryTransactionIsAStepOfItsOwn :
    (∃ s : State, s.sched = [] ∧ s.pending = none ∧ s.phase = .seed ∧ s.dir = .encrypt ∧ s.rngQ = some (chunkOfBlock ivStar) :: []) ∧
    (∃ s : State, s.sched = .core :: [] ∧ s.pending = some (.read .stepSeed) ∧ s.inQ = some (.data (chunkOfBlock e0)) :: []) ∧
    (∃ s : State, s.sched = [] ∧ s.pending = none ∧ s.phase = .stream ∧ s.inQ = some .err :: []) ∧
    (∃ s : State, s.sched = [] ∧ s.pending = some (.offer e0.toList .ivgen) ∧ s.outQ = some .ok :: []) ∧
    (answeredWrite.sched = [] ∧ answeredWrite.pending = some (.write e0.toList .ivgen) ∧ answeredWrite.outQ = some .ok :: []) :=
  ⟨⟨{ state2 .encrypt .seed b0 with rngQ := [some (chunkOfBlock ivStar)] }, rfl, rfl, rfl, rfl, rfl⟩,
    ⟨{ waitingRead with sched := [.core], inQ := [some (.data (chunkOfBlock e0))] }, rfl, rfl, rfl⟩,
    ⟨{ state2 .decrypt .stream e0 with inQ := [some .err] }, rfl, rfl, rfl, rfl⟩,
    ⟨{ answeredWrite with pending := some (.offer e0.toList .ivgen) }, rfl, rfl, rfl⟩, ⟨rfl, rfl, rfl⟩⟩

theorem wit_ComputationsTouchNoPort :
    (∃ s : State, s.sched = [] ∧ s.pending = some (.drawn (chunkOfBlock ivStar))) ∧
    (readIv.sched = [] ∧ readIv.pending = some (.readDone .stepSeed (.data (chunkOfBlock e0)))) ∧
    (writtenPlain.sched = [] ∧ writtenPlain.pending = some (.written p1.toList .decFull .ok)) :=
  ⟨⟨{ waitingDraw with pending := some (.drawn (chunkOfBlock ivStar)) }, rfl, rfl⟩, ⟨rfl, rfl⟩, ⟨rfl, rfl⟩⟩

/-- The empty read of the loop, and the first read of the decrypt direction. -/
theorem wit_SrFallsBetweenAReadAndItsUse :
    (∃ s : State, s.sched = .core :: .sr :: [] ∧ s.pending = none ∧ s.phase = .stream ∧ s.inQ = some (.data (chunkAt [] 0)) :: []) ∧
    (∃ s : State, s.sched = .core :: .sr :: [] ∧ s.pending = none ∧ s.phase = .seed ∧ s.dir = .decrypt ∧
      s.inQ = some (.data (chunkOfBlock e0)) :: []) :=
  ⟨⟨{ state2 .encrypt .stream e0 with sched := [.core, .sr], inQ := [some (.data (chunkAt [] 0))] }, rfl, rfl, rfl, rfl⟩,
    ⟨{ state2 .decrypt .seed b0 with sched := [.core, .sr], inQ := [some (.data (chunkOfBlock e0))] }, rfl, rfl, rfl, rfl, rfl⟩⟩

/-- V9, last row and V10: the closed forms under K2. -/
theorem test_decStream : decStream (keyOf k2Bytes) (e0.toList ++ e1.toList ++ [0x9D, 0xF0]) = p1.toList ++ [0x73, 0x6C] := by decide

end Sys2Proof.Tests
end

/-! # The scope family (spec/00_scope.md): the grain of a step, and that every operation completes -/

namespace Sys2Proof.Machine

/-! ### The step of the core's sequencer -/

/-- It is the core's turn, and `q` is the schedule after it. -/
def coreTurn (s : State) (q : List Slot) : Prop := s.sched = .core :: q ∨ (s.sched = [] ∧ q = [])

/-- On the core's turn a step is the core's move. -/
theorem step_coreTurn {s t : State} {q : List Slot} (turn : coreTurn s q) (move : coreMove { s with sched := q } = t) :
    step s = .next t := by
  subst move
  obtain hs | ⟨hs, rfl⟩ := turn
  · simp [step_eq, nextOp, hs]
  · have same : ({ s with sched := [] } : State) = s := by rw [← hs]
    simp [step_eq, nextOp, hs, same]

/-- The host's `SR` is a step of its own. -/
theorem step_sr {s : State} {q : List Slot} (h : s.sched = .sr :: q) : step s = .next (readStatus { s with sched := q }) := by
  simp [step_eq, nextOp, h, exec, execSr]

/-- While an operation is in progress the core's move is its next step. -/
theorem coreMove_of_pending {s : State} {p : Pending} (h : s.pending = some p) : coreMove s = advance p s := by
  simp [coreMove, h]

/-! ### A port that has an answer -/

theorem askDraw_of_answer {s : State} {c : Chunk} {r : List (Option Chunk)} (h : s.rngQ = some c :: r) :
    askDraw s = { s with rngQ := r, pending := some (.drawn c), log := .draw c :: s.log } := by
  simp [askDraw, h]

theorem askRead_of_answer (k : Reader) {s : State} {a : InAnswer} {r : List (Option InAnswer)} (h : s.inQ = some a :: r) :
    askRead k s = { s with inQ := r, pending := some (.readDone k a), log := .read a :: s.log } := by
  simp [askRead, h]

theorem askWrite_of_answer (v : List Byte) (k : After) {s : State} {a : OutAnswer} {r : List (Option OutAnswer)}
    (h : s.outQ = some a :: r) :
    askWrite v k s = { s with outQ := r, pending := some (.written v k a), log := .write v a :: s.log } := by
  simp [askWrite, h]

/-! ### Transactions that are due -/

/-- The core's next transaction is the draw of `CE.IVGEN`: it waits, or `SF.STEP` begins with it. -/
def drawDue (s : State) : Prop := s.pending = some .draw ∨ (s.pending = none ∧ s.phase = .seed ∧ s.dir = .encrypt)

/-- The core's next transaction is a read on behalf of `k`: it waits, or `SF.STEP` begins with it. -/
def readDue (s : State) (k : Reader) : Prop :=
  s.pending = some (.read k) ∨ (s.pending = none ∧ k = .stepSeed ∧ s.phase = .seed ∧ s.dir = .decrypt) ∨
    (s.pending = none ∧ k = .stepStream ∧ s.phase = .stream)

/-- The core's next transaction is the write of `v` for `k`: it has not been issued yet, or it waits. -/
def writeDue (s : State) (v : List Byte) (k : After) : Prop := s.pending = some (.offer v k) ∨ s.pending = some (.write v k)

theorem coreMove_of_drawDue {s : State} (h : drawDue s) : coreMove s = askDraw s := by
  obtain hp | ⟨hp, hphase, hdir⟩ := h
  · exact coreMove_of_pending hp
  · simp [coreMove, hp, hphase, seedFirst, hdir]

theorem coreMove_of_readDue {s : State} {k : Reader} (h : readDue s k) : coreMove s = askRead k s := by
  obtain hp | ⟨hp, rfl, hphase, hdir⟩ | ⟨hp, rfl, hphase⟩ := h
  · exact coreMove_of_pending hp
  · simp [coreMove, hp, hphase, seedFirst, hdir]
  · simp [coreMove, hp, hphase, streamFirst]

theorem coreMove_of_writeDue {s : State} {v : List Byte} {k : After} (h : writeDue s v k) : coreMove s = askWrite v k s := by
  obtain hp | hp := h
  · exact coreMove_of_pending hp
  · exact coreMove_of_pending hp

section transactions
variable {s : State} {q : List Slot} (turn : coreTurn s q)
include turn

/-- An answered draw is one step. -/
theorem step_draw {c : Chunk} {r : List (Option Chunk)} (due : drawDue s) (h : s.rngQ = some c :: r) :
    step s = .next { s with sched := q, rngQ := r, pending := some (.drawn c), log := .draw c :: s.log } :=
  step_coreTurn turn (Eq.trans (coreMove_of_drawDue due) (askDraw_of_answer h))

/-- An answered read is one step. -/
theorem step_read {k : Reader} {a : InAnswer} {r : List (Option InAnswer)} (due : readDue s k) (h : s.inQ = some a :: r) :
    step s = .next { s with sched := q, inQ := r, pending := some (.readDone k a), log := .read a :: s.log } :=
  step_coreTurn turn (Eq.trans (coreMove_of_readDue due) (askRead_of_answer k h))

/-- An answered write is one step. -/
theorem step_write {v : List Byte} {k : After} {a : OutAnswer} {r : List (Option OutAnswer)} (due : writeDue s v k)
    (h : s.outQ = some a :: r) :
    step s = .next { s with sched := q, outQ := r, pending := some (.written v k a), log := .write v a :: s.log } :=
  step_coreTurn turn (Eq.trans (coreMove_of_writeDue due) (askWrite_of_answer v k h))

end transactions

/-! ### Computations -/

/-- `t` has the ports and the history of `s`. -/
structure PortsKept (s t : State) : Prop where
  inQ : t.inQ = s.inQ
  outQ : t.outQ = s.outQ
  rngQ : t.rngQ = s.rngQ
  log : t.log = s.log

/-- In `t` the operation has ended, or its write is due and nothing of its effect but the buffers of the computation has been written. -/
def EndedOrDue (s t : State) : Prop :=
  t.pending = none ∨ ∃ v k, t.pending = some (.offer v k) ∧ t.prev = s.prev ∧ t.count = s.count ∧ t.phase = s.phase ∧ t.cause = s.cause

/-- What a computation between two transactions does to the ports, the history and the operation in progress. -/
structure Computes (s t : State) : Prop where
  ports : PortsKept s t
  ended_or_due : EndedOrDue s t

/-- A computation does not look at what was pending before it. -/
theorem Computes.of_pending {s t : State} {p : Option Pending} (h : Computes { s with pending := p } t) : Computes s t :=
  ⟨⟨h.ports.inQ, h.ports.outQ, h.ports.rngQ, h.ports.log⟩, h.ended_or_due⟩

/-- The abort action ends the operation. -/
theorem raise_computes (e : ErrorKind) (s : State) : Computes s (raise e s) := ⟨⟨rfl, rfl, rfl, rfl⟩, .inl rfl⟩

theorem ceIvgen_computes (c : Chunk) (s : State) : Computes s (ceIvgen c s) := by
  unfold ceIvgen
  split
  · exact ⟨by constructor <;> simp, .inr ⟨_, _, offer_pending .., by simp⟩⟩
  · exact raise_computes _ s

theorem ceEncFull_computes (b : Block) (s : State) : Computes s (ceEncFull b s) :=
  ⟨by constructor <;> simp [ceEncFull], .inr ⟨_, _, offer_pending .., by simp [ceEncFull]⟩⟩

theorem ceEncTail_computes (b : List Byte) (s : State) : Computes s (ceEncTail b s) :=
  ⟨by constructor <;> simp [ceEncTail], .inr ⟨_, _, offer_pending .., by simp [ceEncTail]⟩⟩

theorem ceDecFull_computes (b : Block) (s : State) : Computes s (ceDecFull b s) :=
  ⟨by constructor <;> simp [ceDecFull], .inr ⟨_, _, offer_pending .., by simp [ceDecFull]⟩⟩

theorem ceDecTail_computes (b : List Byte) (s : State) : Computes s (ceDecTail b s) :=
  ⟨⟨rfl, rfl, rfl, rfl⟩, .inr ⟨_, _, offer_pending .., rfl, rfl, rfl, rfl⟩⟩

section chunks
variable (c : Chunk) {s : State} (free : s.pending = none)
include free

theorem seedChunk_computes : Computes s (seedChunk c s) := by
  unfold seedChunk
  split
  · exact ⟨⟨rfl, rfl, rfl, rfl⟩, .inl free⟩
  · exact raise_computes .io s

theorem streamChunk_computes : Computes s (streamChunk c s) := by
  unfold streamChunk
  split
  · split
    · exact ceEncFull_computes _ s
    · exact ceDecFull_computes _ s
  · split
    · split
      · exact ceEncTail_computes _ s
      · exact ceDecTail_computes _ s
    · exact ⟨⟨rfl, rfl, rfl, rfl⟩, .inl free⟩

theorem useChunk_computes (k : Reader) : Computes s (useChunk k c s) := by
  cases k with
  | bare => exact ⟨⟨rfl, rfl, rfl, rfl⟩, .inl free⟩
  | stepSeed => exact seedChunk_computes c free
  | stepStream => exact streamChunk_computes c free

end chunks

theorem afterRead_computes (k : Reader) (a : InAnswer) (s : State) : Computes s (afterRead k a s) := by
  cases a with
  | data c => exact (useChunk_computes c (s := { s with pending := none }) rfl k).of_pending
  | err => exact raise_computes .io s

theorem afterWrite_computes (v : List Byte) (k : After) (a : OutAnswer) (s : State) : Computes s (afterWrite v k a s) := by
  by_cases ok : a = .ok
  · subst ok
    exact ⟨by constructor <;> simp, .inl (by simp)⟩
  · rw [afterWrite_fail v k a s ok]
    exact raise_computes .io s

/-- The answers that the next computation uses. -/
def Pending.answered (p : Pending) : Prop := (∃ c, p = .drawn c) ∨ (∃ k a, p = .readDone k a) ∨ (∃ v k a, p = .written v k a)

/-- The move that follows an answer is a computation. -/
theorem advance_computes {p : Pending} (h : p.answered) (s : State) : Computes s (advance p s) := by
  obtain ⟨c, rfl⟩ | ⟨k, a, rfl⟩ | ⟨v, k, a, rfl⟩ := h
  · exact (ceIvgen_computes c { s with pending := none }).of_pending
  · exact afterRead_computes k a s
  · exact afterWrite_computes v k a s

/-- Settles O59: the step is `advance` of the answer, every computation `Computes`, and no move touches the key or the direction. -/
theorem computationsTouchNoPort : Obligations.ComputationsTouchNoPort := by
  intro s q p turn hp answered
  have hstep : step s = .next (advance p { s with sched := q }) :=
    step_coreTurn turn (coreMove_of_pending hp)
  obtain ⟨hkey, hkeylen, hdir, hsched, -⟩ := advance_frame p { s with sched := q }
  obtain ⟨ports, ended_or_due⟩ := advance_computes answered { s with sched := q }
  exact ⟨_, hstep, hsched, ports.inQ, ports.outQ, ports.rngQ, ports.log, hkey, hkeylen, hdir, ended_or_due⟩

/-- Settles O58: each of the three transactions is one step of the core's turn. -/
theorem everyTransactionIsAStepOfItsOwn : Obligations.EveryTransactionIsAStepOfItsOwn := by
  intro s q turn
  exact ⟨fun _ _ due h => step_draw turn due h, fun _ _ _ due h => step_read turn due h, fun _ _ _ _ due h => step_write turn due h⟩

/-- A busy core that is about to begin the loop, or the IV step of the decrypt direction, begins it with a read. -/
theorem readDue_of_first_move {s : State} (free : s.pending = none) (h : s.phase = .stream ∨ (s.phase = .seed ∧ s.dir = .decrypt)) :
    ∃ k, readDue s k := by
  obtain hphase | ⟨hphase, hdir⟩ := h
  · exact ⟨.stepStream, .inr (.inr ⟨free, rfl, hphase⟩)⟩
  · exact ⟨.stepSeed, .inr (.inl ⟨free, rfl, hphase, hdir⟩)⟩

/-- Settles O60: the read is the first step and `SR` the second; the read leaves `DIR`, `CAUSE` and `PHASE`, so `STATUS`, as they were. -/
theorem srFallsBetweenAReadAndItsUse : Obligations.SrFallsBetweenAReadAndItsUse := by
  intro s a r q hs free hphase hin
  obtain ⟨k, due⟩ := readDue_of_first_move free hphase
  have read_first := runSteps_succ (n := 1) (step_read (.inl hs) due hin)
  exact ⟨k, _, _, read_first.trans (runSteps_succ (step_sr rfl))⟩

/-! ### Every operation completes -/

/-- The result `r` of a term that is well-formed as `wf` says: a next state, or the refusal of an ill-formed term. -/
def Answers (wf : Bool) (r : Result) : Prop :=
  (wf = true → ∃ t, r = .next t) ∧ (wf = false → ∃ m, r = .refused (.illFormed m))

theorem answers_next (t : State) : Answers true (.next t) := ⟨fun _ => ⟨t, rfl⟩, nofun⟩

/-- A meaning that checks its operand first. -/
theorem answers_guard (wf : Bool) (t : State) (m : String) : Answers wf (if wf then .next t else .refused (.illFormed m)) := by
  cases wf
  · exact ⟨nofun, fun _ => ⟨m, rfl⟩⟩
  · exact answers_next t

/-- Settles O8: the four operations with an operand bound check it, and every other operation answers a next state at once. -/
theorem everyOperationAnswersANextState : Obligations.EveryOperationAnswersANextState := by
  intro i s
  change Answers i.wf (exec i s)
  cases i with
  | ceEncTail b => exact answers_guard (tailLength b) _ _
  | ceDecTail b => exact answers_guard (tailLength b) _ _
  | sfWrite v => exact answers_guard (writeLength v) _ _
  | sfFault src =>
    cases src with
    | shortFirstRead b => exact answers_guard (shortLength b) _ _
    | raised e => exact answers_next _
  | _ => exact answers_next _

end Sys2Proof.Machine

/-! # The state family (spec/10_state.md): the invariant of a run, what is live, who writes the key, what the host sees -/

namespace Sys2Proof.Machine

/-! ### The step of each host action -/

section hostStep
variable {s : State} {q : List Slot}

theorem step_load_busy {key : List Byte} (head : s.sched = .load key :: q) (busy : s.phase.busy = true) :
    step s = .next { s with sched := q } := by
  simp [step_eq, nextOp, head, exec, execKsLoad, busy]

theorem step_load_idle {key : List Byte} (head : s.sched = .load key :: q) (idle : s.phase.busy = false) :
    step s = .next { s with sched := q, keylen := key.length, key := storeKey s.key key } := by
  simp [step_eq, nextOp, head, exec, execKsLoad, idle]

theorem step_start {d : Dir} (head : s.sched = .start d :: q) : step s = .next (startOp d { s with sched := q }) := by
  rw [step_eq, nextOp, head]
  rfl

theorem step_reset (head : s.sched = .reset :: q) : step s = .next (resetCore { s with sched := q }) := by
  rw [step_eq, nextOp, head]

end hostStep

section start
variable (d : Dir) {s : State}

/-- A busy core refuses `START`. -/
theorem startOp_of_busy (busy : s.phase.busy = true) : startOp d s = s := by simp [startOp, busy]

/-- `START` with a key of 64 bytes begins an operation. -/
theorem startOp_of_key (idle : s.phase.busy = false) (checked : s.keylen = 64) :
    startOp d s = { s with dir := d, count := 0, cause := .none, log := .started d :: s.log, phase := .seed } := by
  simp [startOp, idle, keyCheckThen, checked]

/-- `START` with a key of another length aborts. -/
theorem startOp_of_bad_key (idle : s.phase.busy = false) (unchecked : s.keylen ≠ 64) :
    startOp d s = raise .keyLength { s with dir := d, count := 0, cause := .none, log := .started d :: s.log } := by
  simp [startOp, idle, keyCheckThen, unchecked]

end start

/-! ### The invariant of a run: what it says of a state -/

/-- The invariant does not read who acts next, as long as nobody selects an operation by name. -/
theorem RunInv.with_sched {s : State} (inv : RunInv s) {q : List Slot} (hq : noSelect q) : RunInv { s with sched := q } :=
  { inv with no_select := hq }

/-- The invariant once the first slot of the schedule has been taken. -/
theorem RunInv.next_slot {s : State} (inv : RunInv s) {a : Slot} {q : List Slot} (head : s.sched = a :: q) :
    RunInv { s with sched := q } :=
  inv.with_sched fun d hd => inv.no_select d (head ▸ List.mem_cons_of_mem a hd)

theorem busy_of_readFits {s : State} {k : Reader} (fits : readFits s k) : s.phase.busy = true := by
  cases k with
  | bare => exact fits.elim
  | stepSeed => rw [fits.1]; rfl
  | stepStream => rw [show s.phase = .stream from fits]; rfl

theorem busy_of_writeFits {s : State} {v : List Byte} {k : After} (fits : writeFits s v k) : s.phase.busy = true := by
  cases k with
  | bare => exact fits.elim
  | ivgen | encFull | encTail | decFull | decTail => rw [fits.1]; rfl

/-- An operation in progress is of a busy core. -/
theorem RunInv.busy_of_pending {s : State} (inv : RunInv s) {p : Pending} (hp : s.pending = some p) : s.phase.busy = true := by
  have fits := inv.pending_fits
  rw [pendingFits, hp] at fits
  cases p with
  | draw | drawn => rw [fits.1]; rfl
  | read => exact busy_of_readFits fits
  | readDone => exact busy_of_readFits fits.1
  | offer | write => exact busy_of_writeFits fits
  | written => exact busy_of_writeFits fits.1

/-- A core that is not busy has nothing in progress. -/
theorem RunInv.free_of_not_busy {s : State} (inv : RunInv s) (idle : s.phase.busy = false) : s.pending = none := by
  cases hp : s.pending with
  | none => rfl
  | some p => exact absurd (inv.busy_of_pending hp) (by simp [idle])

/-- While the chain is being seeded nothing is counted, and the sink has accepted the IV block at most. -/
theorem RunInv.seed_count {s : State} (inv : RunInv s) (seed : s.phase = .seed) : s.count = 0 ∧ runOut s.log = acceptedBytes s := by
  simpa only [countFits, seed] using inv.count_fits

/-- What the IV block adds to the output and not to `COUNT` (43_stream_framer.md R166). -/
def ivBytes : Dir → BitVec 64
  | .encrypt => 8
  | .decrypt => 0

/-- In the loop the output is the IV block, the bytes counted and the bytes to be counted. -/
theorem RunInv.stream_count {s : State} (inv : RunInv s) (stream : s.phase = .stream) :
    BitVec.ofNat 64 (runOut s.log).length = addCount s.count (acceptedBytes s).length + ivBytes s.dir := by
  have count := inv.count_fits
  simp only [countFits, stream] at count
  cases hd : s.dir with
  | encrypt =>
    simp only [hd, addCount] at count
    rw [count, addCount, ivBytes, add_right_comm]
  | decrypt =>
    simp only [hd] at count
    rw [count, ivBytes, add_zero]

/-- Between two operations of the loop, and after the last, the output is the IV block and the bytes counted. -/
theorem countFits_of_all_counted {t : State} (phase : t.phase = .stream ∨ t.phase = .done) (all_counted : acceptedBytes t = [])
    (count : BitVec.ofNat 64 (runOut t.log).length = t.count + ivBytes t.dir) : countFits t := by
  obtain h | h := phase
  · simp only [countFits, h, all_counted]
    cases hd : t.dir <;> simpa [addCount, ivBytes, hd] using count
  · simp only [countFits, h]
    cases hd : t.dir <;> simpa [ivBytes, hd] using count

/-! ### The invariant of a run: moves of an operation in progress -/

/-- A busy core that stays busy or ends its operation keeps the part of the invariant that speaks of the control state. -/
theorem RunInv.of_busy {s t : State} (inv : RunInv s) (busy : s.phase.busy = true) (sched : t.sched = s.sched)
    (keylen : t.keylen = s.keylen) (cause : t.cause = s.cause)
    (phase : t.phase = s.phase ∨ t.phase = .stream ∨ t.phase = .done)
    (fits : pendingFits t) (chain : chainFits t) (count : countFits t) : RunInv t := by
  have not_fail : s.phase ≠ .fail := fun h => by simp [h, Phase.busy] at busy
  have not_idle : s.phase ≠ .idle := fun h => by simp [h, Phase.busy] at busy
  have no_cause : t.cause = .none := cause.trans (inv.cause_only_in_fail.mpr not_fail)
  have moves : t.phase ≠ .fail ∧ t.phase ≠ .idle := by obtain h | h | h := phase <;> simp [h, not_fail, not_idle]
  exact {
    no_select := sched ▸ inv.no_select
    key_loaded := fun _ => keylen.trans (inv.key_loaded busy)
    cause_only_in_fail := by simp [no_cause, moves.1]
    entropy_encrypt_only := by simp [no_cause]
    idle_as_reset := fun h => absurd h moves.2
    pending_fits := fits
    chain_fits := chain
    count_fits := count }

/-- `t` is `s` after a move that goes on with the operation in progress: `PHASE`, `PREV` and `COUNT` stay, and what the sink has accepted in
the move is to be counted later. -/
structure GoesOn (s t : State) : Prop where
  sched : t.sched = s.sched := by simp
  keylen : t.keylen = s.keylen := by simp
  dir : t.dir = s.dir := by simp
  phase : t.phase = s.phase := by simp
  cause : t.cause = s.cause := by simp
  count : t.count = s.count := by simp
  prev : t.prev = s.prev := by simp
  all_counted : acceptedBytes s = []
  out : runOut t.log = runOut s.log ++ acceptedBytes t
  chunk : s.dir = .decrypt → ¬ chunkInHand t → ¬ chunkInHand s ∧ lastFullRead t.log = lastFullRead s.log

theorem GoesOn.chainFits {s t : State} (m : GoesOn s t) (h : chainFits s) : chainFits t := by
  intro stream
  have chain := h (m.phase ▸ stream)
  rw [m.dir]
  cases hd : s.dir with
  | encrypt =>
    simp only [hd] at chain ⊢
    intro nothing_new
    rw [m.out, m.prev, nothing_new, List.append_nil]
    exact chain m.all_counted
  | decrypt =>
    simp only [hd] at chain ⊢
    intro not_in_hand
    obtain ⟨not_before, same⟩ := m.chunk hd not_in_hand
    rw [same, m.prev]
    exact chain not_before

theorem GoesOn.countFits {s t : State} (m : GoesOn s t) (busy : s.phase.busy = true) (h : countFits s) : countFits t := by
  unfold Machine.countFits at h ⊢
  rw [m.phase, m.dir, m.count, m.out]
  rw [m.all_counted] at h
  cases hph : s.phase with
  | idle | done | fail => simp [hph, Phase.busy] at busy
  | seed =>
    simp only [hph] at h ⊢
    exact ⟨h.1, by rw [h.2, List.nil_append]⟩
  | stream =>
    simp only [hph] at h ⊢
    cases hd : s.dir with
    | encrypt | decrypt =>
      simp only [hd, addCount, List.length_nil, BitVec.add_zero] at h ⊢
      rw [List.length_append, BitVec.ofNat_add, h]

/-- A move that goes on with the operation in progress keeps the invariant. -/
theorem GoesOn.runInv {s t : State} (m : GoesOn s t) (inv : RunInv s) (busy : s.phase.busy = true) (fits : pendingFits t) : RunInv t :=
  inv.of_busy busy m.sched m.keylen m.cause (.inl m.phase) fits (m.chainFits inv.chain_fits) (m.countFits busy inv.count_fits)

/-! Transactions. -/

theorem askDraw_runInv {s : State} (inv : RunInv s) (due : drawDue s) : RunInv (askDraw s) := by
  have fits : s.phase = .seed ∧ s.dir = .encrypt := by
    obtain hp | ⟨-, fits⟩ := due
    · simpa [pendingFits, hp] using inv.pending_fits
    · exact fits
  have busy : s.phase.busy = true := by rw [fits.1]; rfl
  have encrypts : s.dir ≠ .decrypt := by simp [fits.2]
  have all_counted : acceptedBytes s = [] := by obtain hp | ⟨hp, -⟩ := due <;> simp [acceptedBytes, hp]
  have m : GoesOn s (askDraw s) := by
    obtain ⟨c, q, -, e⟩ | ⟨-, e⟩ := askDraw_cases s <;> rw [e] <;>
      exact { all_counted, out := (List.append_nil _).symm, chunk := fun h => absurd h encrypts }
  refine m.runInv inv busy ?_
  obtain ⟨c, q, -, e⟩ | ⟨-, e⟩ := askDraw_cases s <;> rw [e]
  · exact ⟨fits.1, fits.2, rfl⟩
  · exact fits

theorem askRead_runInv {s : State} {k : Reader} (inv : RunInv s) (due : readDue s k) : RunInv (askRead k s) := by
  have fits : readFits s k := by
    obtain hp | ⟨-, rfl, fits⟩ | ⟨-, rfl, fits⟩ := due
    · simpa [pendingFits, hp] using inv.pending_fits
    · exact fits
    · exact fits
  have all_counted : acceptedBytes s = [] := by obtain hp | ⟨hp, -⟩ | ⟨hp, -⟩ := due <;> simp [acceptedBytes, hp]
  have not_in_hand : ¬ chunkInHand s := by obtain hp | ⟨hp, -⟩ | ⟨hp, -⟩ := due <;> simp [chunkInHand, hp]
  obtain ⟨a, q, -, e⟩ | ⟨-, e⟩ := askRead_cases k s
  · have m : GoesOn s (askRead k s) := by
      rw [e]
      refine { all_counted, out := (List.append_nil _).symm, chunk := fun _ not_full => ⟨not_in_hand, ?_⟩ }
      cases a with
      | data c => exact if_neg not_full
      | err => rfl
    exact m.runInv inv (busy_of_readFits fits) (by rw [e]; exact ⟨fits, rfl⟩)
  · have m : GoesOn s (askRead k s) := by
      rw [e]
      exact { all_counted, out := (List.append_nil _).symm, chunk := fun _ _ => ⟨not_in_hand, rfl⟩ }
    exact m.runInv inv (busy_of_readFits fits) (by rw [e]; exact fits)

theorem askWrite_runInv {s : State} {v : List Byte} {k : After} (inv : RunInv s) (due : writeDue s v k) : RunInv (askWrite v k s) := by
  have fits : writeFits s v k := by obtain hp | hp := due <;> simpa [pendingFits, hp] using inv.pending_fits
  have all_counted : acceptedBytes s = [] := by obtain hp | hp := due <;> simp [acceptedBytes, hp]
  have in_hand : chunkInHand s ↔ k = .decFull := by obtain hp | hp := due <;> simp [chunkInHand, hp]
  obtain ⟨a, q, -, e⟩ | ⟨-, e⟩ := askWrite_cases v k s
  · have m : GoesOn s (askWrite v k s) := by
      rw [e]
      refine { all_counted, out := ?_, chunk := fun _ not_full => ⟨fun h => not_full (in_hand.mp h), rfl⟩ }
      cases a with
      | ok => rfl
      | short | err => exact (List.append_nil _).symm
    exact m.runInv inv (busy_of_writeFits fits) (by rw [e]; exact ⟨by cases k <;> exact fits, rfl⟩)
  · have m : GoesOn s (askWrite v k s) := by
      rw [e]
      exact { all_counted, out := (List.append_nil _).symm, chunk := fun _ not_full => ⟨fun h => not_full (in_hand.mp h), rfl⟩ }
    exact m.runInv inv (busy_of_writeFits fits) (by rw [e]; cases k <;> exact fits)

/-! Computations. -/

/-- The abort of a failed transaction keeps the invariant. -/
theorem RunInv.raise_io {s : State} (inv : RunInv s) : RunInv (raise .io s) where
  no_select := inv.no_select
  key_loaded := nofun
  cause_only_in_fail := by simp [causeOf]
  entropy_encrypt_only := nofun
  idle_as_reset := nofun
  pending_fits := trivial
  chain_fits := nofun
  count_fits := trivial

/-- The abort of a short draw keeps the invariant: the core encrypts, and the sink has accepted nothing. -/
theorem RunInv.raise_entropySource {s : State} (inv : RunInv s) (dir : s.dir = .encrypt) (silent : runOut s.log = []) :
    RunInv (raise .entropySource s) where
  no_select := inv.no_select
  key_loaded := nofun
  cause_only_in_fail := by simp [causeOf]
  entropy_encrypt_only := fun _ => dir
  idle_as_reset := nofun
  pending_fits := trivial
  chain_fits := nofun
  count_fits := silent

theorem ceIvgen_runInv {s : State} {c : Chunk} (inv : RunInv s) (hp : s.pending = some (.drawn c)) :
    RunInv (ceIvgen c { s with pending := none }) := by
  have fits := inv.pending_fits
  rw [pendingFits, hp] at fits
  obtain ⟨seed, encrypts, -⟩ := fits
  have all_counted : acceptedBytes s = [] := by simp [acceptedBytes, hp]
  unfold ceIvgen
  split
  · refine GoesOn.runInv (s := s) { all_counted, out := ?_, chunk := ?_ } inv (inv.busy_of_pending hp) ?_
    · simp [acceptedBytes]
    · simp [encrypts]
    · exact ⟨by simp [seed], by simp [encrypts], rfl⟩
  · exact inv.raise_entropySource encrypts (all_counted ▸ (inv.seed_count seed).2)

/-- A full chunk that is the newest event is the last full chunk read. -/
theorem lastFullRead_of_head {l : List Event} {c : Chunk} (newest : l.head? = some (.read (.data c))) (full : c.len = Config.blockSize) :
    lastFullRead l = some (pad8 c.bytes) := by
  obtain ⟨l, rfl⟩ := List.head?_eq_some_iff.mp newest
  exact if_pos full

/-- An accepted write that is the newest event ends the output. -/
theorem runOut_of_head {l : List Event} {v : List Byte} (newest : l.head? = some (.write v .ok)) : ∃ before, runOut l = before ++ v := by
  obtain ⟨l, rfl⟩ := List.head?_eq_some_iff.mp newest
  exact ⟨runOut l, rfl⟩

/-- Of the bytes of a tail, the block offers as many as were read. -/
theorem tail_offered {c : Chunk} (partial_chunk : c.len ≠ Config.blockSize) (some_bytes : 1 ≤ c.len) (b : Block) :
    tailLength (firstBytes c.bytes.length b) = true ∧
      firstBytes c.bytes.length b = firstBytes (firstBytes c.bytes.length b).length b := by
  have length := firstBytes_length c.bytes.length b c.le_blockSize
  have less : c.len < 8 := Nat.lt_of_le_of_ne c.le_blockSize partial_chunk
  refine ⟨?_, by rw [length]⟩
  rw [tailLength, length, Bool.and_eq_true, decide_eq_true_iff, decide_eq_true_iff]
  exact ⟨some_bytes, Nat.le_of_lt_succ less⟩

section chunkInUse
variable {s : State} {c : Chunk} (inv : RunInv s)
include inv

theorem seedChunk_runInv (hp : s.pending = some (.readDone .stepSeed (.data c))) : RunInv (seedChunk c { s with pending := none }) := by
  have fits := inv.pending_fits
  rw [pendingFits, hp] at fits
  obtain ⟨⟨seed, decrypts⟩, newest⟩ := fits
  unfold seedChunk
  split
  case isTrue full =>
    refine inv.of_busy (inv.busy_of_pending hp) rfl rfl rfl (.inr (.inl rfl)) trivial ?_ ?_
    · intro _
      simp [decrypts, ceIvload, lastFullRead_of_head newest full]
    · obtain ⟨zero, out⟩ := inv.seed_count seed
      refine countFits_of_all_counted (.inl rfl) rfl ?_
      simp [ceIvload, out, zero, acceptedBytes, hp, decrypts, ivBytes]
  case isFalse => exact inv.raise_io

section loop
variable (hp : s.pending = some (.readDone .stepStream (.data c)))
include hp

theorem ceEncFull_runInv (stream : s.phase = .stream) (encrypts : s.dir = .encrypt) (b : Block) :
    RunInv (ceEncFull b { s with pending := none }) := by
  unfold ceEncFull
  refine GoesOn.runInv (s := s) { all_counted := by simp [acceptedBytes, hp], out := by simp [acceptedBytes], chunk := ?_ } inv
    (inv.busy_of_pending hp) ?_
  · simp [encrypts]
  · exact ⟨by simp [stream], by simp [encrypts], rfl⟩

theorem ceEncTail_runInv (stream : s.phase = .stream) (encrypts : s.dir = .encrypt) (partial_chunk : c.len ≠ Config.blockSize)
    (some_bytes : 1 ≤ c.len) : RunInv (ceEncTail c.bytes { s with pending := none }) := by
  unfold ceEncTail
  refine GoesOn.runInv (s := s) { all_counted := by simp [acceptedBytes, hp], out := by simp [acceptedBytes], chunk := ?_ } inv
    (inv.busy_of_pending hp) ?_
  · simp [encrypts]
  · exact ⟨by simp [stream], by simp [encrypts], tail_offered partial_chunk some_bytes _⟩

theorem ceDecFull_runInv (stream : s.phase = .stream) (decrypts : s.dir = .decrypt) (newest : s.log.head? = some (.read (.data c)))
    (full : c.len = Config.blockSize) : RunInv (ceDecFull (pad8 c.bytes) { s with pending := none }) := by
  unfold ceDecFull
  refine GoesOn.runInv (s := s) { all_counted := by simp [acceptedBytes, hp], out := by simp [acceptedBytes], chunk := ?_ } inv
    (inv.busy_of_pending hp) ?_
  · exact fun _ not_in_hand => absurd rfl not_in_hand
  · exact ⟨by simp [stream], by simp [decrypts], rfl, by simp [lastFullRead_of_head newest full]⟩

theorem ceDecTail_runInv (stream : s.phase = .stream) (decrypts : s.dir = .decrypt) (partial_chunk : c.len ≠ Config.blockSize)
    (some_bytes : 1 ≤ c.len) : RunInv (ceDecTail c.bytes { s with pending := none }) := by
  unfold ceDecTail
  refine GoesOn.runInv (s := s) { all_counted := by simp [acceptedBytes, hp], out := by simp [acceptedBytes], chunk := ?_ } inv
    (inv.busy_of_pending hp) ?_
  · simp [chunkInHand, hp, partial_chunk]
  · exact ⟨stream, decrypts, tail_offered partial_chunk some_bytes _⟩

theorem endOp_runInv (stream : s.phase = .stream) : RunInv (endOp { s with pending := none }) := by
  refine inv.of_busy (inv.busy_of_pending hp) rfl rfl rfl (.inr (.inr rfl)) trivial nofun (countFits_of_all_counted (.inr rfl) rfl ?_)
  have count := inv.stream_count stream
  simp only [acceptedBytes, hp, addCount, List.length_nil, BitVec.add_zero] at count
  exact count

theorem streamChunk_runInv : RunInv (streamChunk c { s with pending := none }) := by
  have fits := inv.pending_fits
  rw [pendingFits, hp] at fits
  obtain ⟨stream, newest⟩ := fits
  unfold streamChunk
  split
  case isTrue full =>
    split
    case h_1 encrypts => exact ceEncFull_runInv inv hp stream encrypts _
    case h_2 decrypts => exact ceDecFull_runInv inv hp stream decrypts newest full
  case isFalse partial_chunk =>
    split
    case isTrue some_bytes =>
      split
      case h_1 encrypts => exact ceEncTail_runInv inv hp stream encrypts partial_chunk some_bytes
      case h_2 decrypts => exact ceDecTail_runInv inv hp stream decrypts partial_chunk some_bytes
    case isFalse => exact endOp_runInv inv hp stream

end loop

theorem afterRead_runInv {k : Reader} {a : InAnswer} (hp : s.pending = some (.readDone k a)) : RunInv (afterRead k a s) := by
  cases a with
  | err => exact inv.raise_io
  | data c =>
    cases k with
    | bare =>
      have fits := inv.pending_fits
      rw [pendingFits, hp] at fits
      exact fits.1.elim
    | stepSeed => exact seedChunk_runInv inv hp
    | stepStream => exact streamChunk_runInv inv hp

end chunkInUse

/-- The end of an operation whose write was accepted keeps the invariant. -/
theorem finish_runInv {s : State} {v : List Byte} {k : After} (inv : RunInv s) (hp : s.pending = some (.written v k .ok)) :
    RunInv (finish k v.length { s with pending := none }) := by
  have fits := inv.pending_fits
  rw [pendingFits, hp] at fits
  obtain ⟨fits, newest⟩ := fits
  have busy := inv.busy_of_pending hp
  have accepted : acceptedBytes s = v := by simp [acceptedBytes, hp]
  obtain ⟨before, out⟩ := runOut_of_head newest
  have counted (stream : s.phase = .stream) :
      BitVec.ofNat 64 (runOut s.log).length = addCount s.count v.length + ivBytes s.dir :=
    accepted ▸ inv.stream_count stream
  cases k with
  | bare => exact fits.elim
  | ivgen =>
    obtain ⟨seed, encrypts, hv⟩ := fits
    obtain ⟨zero, iv_only⟩ := inv.seed_count seed
    refine inv.of_busy busy rfl rfl rfl (.inr (.inl rfl)) trivial ?_ (countFits_of_all_counted (.inl rfl) rfl ?_)
    · intro _
      simp [finish, encrypts, out, hv]
    · simp [finish, iv_only, accepted, hv, zero, encrypts, ivBytes]
  | encFull =>
    obtain ⟨stream, encrypts, hv⟩ := fits
    refine inv.of_busy busy rfl rfl rfl (.inl rfl) trivial ?_ (countFits_of_all_counted (.inl stream) rfl (counted stream))
    intro _
    simp [finish, encrypts, out, hv]
  | decFull =>
    obtain ⟨stream, decrypts, -, read⟩ := fits
    refine inv.of_busy busy rfl rfl rfl (.inl rfl) trivial ?_ (countFits_of_all_counted (.inl stream) rfl (counted stream))
    intro _
    simp [finish, decrypts, read]
  | encTail | decTail =>
    exact inv.of_busy busy rfl rfl rfl (.inr (.inr rfl)) trivial nofun (countFits_of_all_counted (.inr rfl) rfl (counted fits.1))

theorem afterWrite_runInv {s : State} {v : List Byte} {k : After} {a : OutAnswer} (inv : RunInv s)
    (hp : s.pending = some (.written v k a)) : RunInv (afterWrite v k a s) := by
  cases a with
  | ok => exact finish_runInv inv hp
  | short | err => exact inv.raise_io

/-- The next step of the operation in progress keeps the invariant. -/
theorem advance_runInv {s : State} {p : Pending} (inv : RunInv s) (hp : s.pending = some p) : RunInv (advance p s) := by
  cases p with
  | draw => exact askDraw_runInv inv (.inl hp)
  | drawn c => exact ceIvgen_runInv inv hp
  | read k => exact askRead_runInv inv (.inl hp)
  | readDone k a => exact afterRead_runInv inv hp
  | offer v k => exact askWrite_runInv inv (.inl hp)
  | write v k => exact askWrite_runInv inv (.inr hp)
  | written v k a => exact afterWrite_runInv inv hp

/-- The core's move keeps the invariant. -/
theorem CoreMove.runInv {s t : State} (m : CoreMove s t) (inv : RunInv s) : RunInv t := by
  cases m with
  | stay _ _ eq => exact eq ▸ inv
  | advance p next eq => exact eq ▸ advance_runInv inv next
  | draw phase dir free eq => exact eq ▸ askDraw_runInv inv (.inr ⟨free, phase, dir⟩)
  | seed phase dir free eq => exact eq ▸ askRead_runInv inv (.inr (.inl ⟨free, rfl, phase, dir⟩))
  | stream phase free eq => exact eq ▸ askRead_runInv inv (.inr (.inr ⟨free, rfl, phase⟩))

/-! ### The invariant of a run: host actions and reset -/

/-- A key may be loaded while the core is not busy. -/
theorem RunInv.with_key {s : State} (inv : RunInv s) (idle : s.phase.busy = false) (n : Nat) (key : Key) :
    RunInv { s with keylen := n, key := key } :=
  { inv with key_loaded := fun busy => absurd busy (by simp [idle]) }

theorem startOp_runInv {s : State} (inv : RunInv s) (d : Dir) : RunInv (startOp d s) := by
  cases busy : s.phase.busy with
  | true => rwa [startOp_of_busy d busy]
  | false =>
    by_cases checked : s.keylen = 64
    · have free := inv.free_of_not_busy busy
      rw [startOp_of_key d busy checked]
      exact {
        no_select := inv.no_select
        key_loaded := fun _ => checked
        cause_only_in_fail := by simp
        entropy_encrypt_only := nofun
        idle_as_reset := nofun
        pending_fits := by simp [pendingFits, free]
        chain_fits := nofun
        count_fits := ⟨rfl, by simp [acceptedBytes, free, runOut]⟩ }
    · rw [startOp_of_bad_key d busy checked]
      exact {
        no_select := inv.no_select
        key_loaded := nofun
        cause_only_in_fail := by simp [causeOf]
        entropy_encrypt_only := nofun
        idle_as_reset := nofun
        pending_fits := trivial
        chain_fits := nofun
        count_fits := ⟨rfl, rfl⟩ }

theorem readStatus_runInv {s : State} (inv : RunInv s) : RunInv (readStatus s) := { inv with }

/-- Reset leads to the invariant from every state whose schedule selects no operation by name. -/
theorem resetCore_runInv {s : State} (hs : noSelect s.sched) : RunInv (resetCore s) where
  no_select := hs
  key_loaded := nofun
  cause_only_in_fail := by simp
  entropy_encrypt_only := nofun
  idle_as_reset := fun _ => rfl
  pending_fits := trivial
  chain_fits := nofun
  count_fits := rfl

/-- Settles O49: of the invariant, a state in `IDLE` with nothing in progress has only the reset values to meet. -/
theorem resetMeetsTheRunInvariant : Obligations.ResetMeetsTheRunInvariant where
  no_select := nofun
  key_loaded := nofun
  cause_only_in_fail := by simp [State.reset]
  entropy_encrypt_only := nofun
  idle_as_reset := fun _ => rfl
  pending_fits := trivial
  chain_fits := nofun
  count_fits := rfl

/-- Settles O48: each kind of move keeps `RunInv`. -/
theorem stepKeepsTheRunInvariant : Obligations.StepKeepsTheRunInvariant := by
  intro s t inv hstep
  cases move_of_step (headNotSelect_of_noSelect inv.no_select) hstep with
  | load key q head eq =>
    have next := inv.next_slot head
    cases busy : s.phase.busy with
    | true => simpa [eq, busy] using next
    | false => simpa [eq, busy] using next.with_key busy key.length (storeKey s.key key)
  | start d q head eq => exact eq ▸ startOp_runInv (inv.next_slot head) d
  | sr q head eq => exact eq ▸ readStatus_runInv (inv.next_slot head)
  | reset q head eq => exact eq ▸ resetCore_runInv (inv.next_slot head).no_select
  | core q head move =>
    obtain head | ⟨-, rfl⟩ := head
    · exact move.runInv (inv.next_slot head)
    · exact move.runInv (inv.with_sched nofun)

/-! ### Dead fields (10_state.md R35) -/

/-- `s` with the fields that can be dead, the key, the buffers and the hidden round state, taken from `d`. -/
def withDead (s d : State) : State :=
  { s with blk := d.blk, prev := d.prev, ct := d.ct, key := d.key, round := d.round, lane := d.lane, cursor := d.cursor, t := d.t }

/-- Two states agree in every field that cannot be dead when they are equal whatever stands in the others. -/
theorem eq_withDead_iff {a b : State} : b = withDead a b ↔ ∀ d, withDead a d = withDead b d := by
  constructor
  · intro h d
    rw [h]
    rfl
  · intro h
    exact (h b).symm

/-- The update `f` neither reads nor writes a field that can be dead. -/
def IgnoresDead (f : State → State) : Prop := ∀ s d, f (withDead s d) = withDead (f s) d

section fields
variable {f : State → State} (hf : IgnoresDead f) (s : State)
include hf

theorem IgnoresDead.self_eq : f s = withDead (f s) s := hf s s
theorem IgnoresDead.blk : (f s).blk = s.blk := by rw [hf.self_eq]; rfl
theorem IgnoresDead.prev : (f s).prev = s.prev := by rw [hf.self_eq]; rfl
theorem IgnoresDead.ct : (f s).ct = s.ct := by rw [hf.self_eq]; rfl
theorem IgnoresDead.key : (f s).key = s.key := by rw [hf.self_eq]; rfl

end fields

section agree
variable {a b : State} (h : LiveAgree a b)
include h

theorem LiveAgree.eq_withDead : b = withDead a b := h.rest
theorem LiveAgree.keylen : b.keylen = a.keylen := by rw [h.rest]
theorem LiveAgree.dir : b.dir = a.dir := by rw [h.rest]
theorem LiveAgree.phase : b.phase = a.phase := by rw [h.rest]
theorem LiveAgree.pending : b.pending = a.pending := by rw [h.rest]
theorem LiveAgree.sched : b.sched = a.sched := by rw [h.rest]

/-- An update that ignores the dead fields, and makes none of them live, keeps the agreement. -/
theorem IgnoresDead.liveAgree {f : State → State} (hf : IgnoresDead f) (keylen : (f a).keylen = 64 → a.keylen = 64)
    (phase : (f a).phase = .stream → a.phase = .stream) (write : ∀ w, writeOf (f a) = some w → writeOf a = some w) :
    LiveAgree (f a) (f b) where
  rest := by
    have moved : f b = withDead (f a) b := by rw [← hf, ← h.eq_withDead]
    rw [moved]
    rfl
  key_live := fun live => by rw [hf.key, hf.key, h.key_live (keylen live)]
  prev_live := fun live => by rw [hf.prev, hf.prev, h.prev_live (phase live)]
  blk_live := fun v k live => by rw [hf.blk, hf.blk, h.blk_live v k (write _ live)]
  ct_live := fun v live => by rw [hf.ct, hf.ct, h.ct_live v (write _ live)]

theorem LiveAgree.with_sched (q : List Slot) : LiveAgree { a with sched := q } { b with sched := q } :=
  IgnoresDead.liveAgree h (f := fun s => { s with sched := q }) (fun _ _ => rfl) id id fun _ => id

/-! Transactions. -/

theorem askDraw_liveAgree : LiveAgree (askDraw a) (askDraw b) := by
  have ignores : IgnoresDead askDraw := by
    intro s d
    simp only [askDraw, withDead]
    split <;> rfl
  obtain ⟨c, q, -, e⟩ | ⟨-, e⟩ := askDraw_cases a <;> apply ignores.liveAgree h <;> simp [e, writeOf]

theorem askRead_liveAgree (k : Reader) : LiveAgree (askRead k a) (askRead k b) := by
  have ignores : IgnoresDead (askRead k) := by
    intro s d
    simp only [askRead, withDead]
    split <;> rfl
  obtain ⟨c, q, -, e⟩ | ⟨-, e⟩ := askRead_cases k a <;> apply ignores.liveAgree h <;> simp [e, writeOf]

theorem askWrite_liveAgree {v : List Byte} {k : After} (due : writeDue a v k) : LiveAgree (askWrite v k a) (askWrite v k b) := by
  have ignores : IgnoresDead (askWrite v k) := by
    intro s d
    simp only [askWrite, withDead]
    split <;> rfl
  have write : writeOf a = some (v, k) := by obtain hp | hp := due <;> simp [writeOf, hp]
  have same : writeOf (askWrite v k a) = writeOf a := by
    obtain ⟨c, q, -, e⟩ | ⟨-, e⟩ := askWrite_cases v k a <;> rw [e, write] <;> rfl
  obtain ⟨c, q, -, e⟩ | ⟨-, e⟩ := askWrite_cases v k a <;>
    exact ignores.liveAgree h (by simp [e]) (by simp [e]) fun _ hw => same ▸ hw

/-! Ends of operations. -/

theorem raise_liveAgree (e : ErrorKind) : LiveAgree (raise e a) (raise e b) :=
  IgnoresDead.liveAgree h (f := raise e) (fun _ _ => rfl) id nofun nofun

theorem endOp_liveAgree : LiveAgree (endOp a) (endOp b) :=
  IgnoresDead.liveAgree h (f := endOp) (fun _ _ => rfl) id nofun fun _ => id

/-- The agreement once an answer has been taken up. -/
theorem LiveAgree.answer_taken : LiveAgree { a with pending := none } { b with pending := none } :=
  IgnoresDead.liveAgree h (f := fun s => { s with pending := none }) (fun _ _ => rfl) id id nofun

theorem ceIvload_liveAgree (x : Block) : LiveAgree (ceIvload x a) (ceIvload x b) where
  rest := eq_withDead_iff.mpr fun d => congrArg (fun s : State => { s with phase := .stream }) (eq_withDead_iff.mp h.eq_withDead d)
  key_live := h.key_live
  prev_live := fun _ => rfl
  blk_live := h.blk_live
  ct_live := h.ct_live

/-- The end of an operation reads the buffer that its write has kept alive. -/
theorem finish_liveAgree {v : List Byte} {k : After} {r : OutAnswer} (hp : a.pending = some (.written v k r)) (n : Nat) :
    LiveAgree (finish k n { a with pending := none }) (finish k n { b with pending := none }) where
  rest := eq_withDead_iff.mpr fun d => by
    have same := eq_withDead_iff.mp h.eq_withDead d
    cases k with
    | bare => exact congrArg (fun s : State => { s with pending := none }) same
    | ivgen => exact congrArg (fun s : State => { s with phase := .stream, pending := none }) same
    | encFull | decFull => exact congrArg (fun s : State => { s with count := addCount s.count n, pending := none }) same
    | encTail | decTail =>
      exact congrArg (fun s : State => { s with count := addCount s.count n, phase := .done, pending := none }) same
  key_live := by simpa using h.key_live
  prev_live := by
    have write : writeOf a = some (v, k) := by simp [writeOf, hp]
    cases k with
    | bare => exact h.prev_live
    | ivgen | encFull => exact fun _ => h.blk_live _ _ write
    | decFull => exact fun _ => h.ct_live _ write
    | encTail | decTail => exact nofun
  blk_live := by simp [writeOf]
  ct_live := by simp [writeOf]

end agree

/-! Computations. -/

/-- The block after a transform depends on the block and the key before it. -/
theorem blockEnc_blk_congr {a b : State} (key : b.key = a.key) (blk : b.blk = a.blk) : (blockEnc b).blk = (blockEnc a).blk := by
  simp only [blockEnc, encRounds, List.foldl, roundE_eq, key, blk]

theorem blockDec_blk_congr {a b : State} (key : b.key = a.key) (blk : b.blk = a.blk) : (blockDec b).blk = (blockDec a).blk := by
  simp only [blockDec, decRounds, List.foldl, roundD_eq, key, blk]

@[simp] theorem withDead_blockEnc (s d : State) : withDead (blockEnc s) d = withDead s d := by simp [withDead]
@[simp] theorem withDead_blockDec (s d : State) : withDead (blockDec s) d = withDead s d := by simp [withDead]

/-- `a` and `b` agree in the middle of a computation of a busy core: in the key, in the block being computed, in the chain state where the
computation reads it, and in all that cannot be dead. -/
structure ComputeAgree (a b : State) : Prop where
  rest : b = withDead a b
  key : b.key = a.key
  blk : b.blk = a.blk
  prev : a.phase = .stream → b.prev = a.prev

/-- A chunk is kept aside in `CT` without being read. -/
theorem LiveAgree.with_ct {a b : State} (h : LiveAgree a b) (x : Block) : LiveAgree { a with ct := x } { b with ct := x } where
  rest := eq_withDead_iff.mpr fun d => eq_withDead_iff.mp h.eq_withDead d
  key_live := h.key_live
  prev_live := h.prev_live
  blk_live := h.blk_live
  ct_live := fun _ _ => rfl

/-- A computation begins by writing its block. -/
theorem LiveAgree.begin_compute {a b : State} (h : LiveAgree a b) (keylen : a.keylen = 64) (x : Block) :
    ComputeAgree { a with blk := x } { b with blk := x } where
  rest := eq_withDead_iff.mpr fun d => eq_withDead_iff.mp h.eq_withDead d
  key := h.key_live keylen
  blk := rfl
  prev := h.prev_live

section compute
variable {a b : State} (h : ComputeAgree a b)
include h

theorem ComputeAgree.xorPrev (stream : a.phase = .stream) :
    ComputeAgree { a with blk := xorBlock a.blk a.prev } { b with blk := xorBlock b.blk b.prev } where
  rest := eq_withDead_iff.mpr fun d => eq_withDead_iff.mp h.rest d
  key := h.key
  blk := by simp only [h.blk, h.prev stream]
  prev := h.prev

theorem ComputeAgree.blockEnc : ComputeAgree (blockEnc a) (blockEnc b) where
  rest := eq_withDead_iff.mpr fun d => by simpa using eq_withDead_iff.mp h.rest d
  key := by simpa using h.key
  blk := blockEnc_blk_congr h.key h.blk
  prev := by simpa using h.prev

theorem ComputeAgree.blockDec : ComputeAgree (blockDec a) (blockDec b) where
  rest := eq_withDead_iff.mpr fun d => by simpa using eq_withDead_iff.mp h.rest d
  key := by simpa using h.key
  blk := blockDec_blk_congr h.key h.blk
  prev := by simpa using h.prev

/-- A computation ends with the offer of bytes of its block. -/
theorem ComputeAgree.offer (out : Block → List Byte) (k : After) (ct : k = .decFull → b.ct = a.ct) :
    LiveAgree (offer (out a.blk) k a) (offer (out b.blk) k b) where
  rest := eq_withDead_iff.mpr fun d => by
    rw [h.blk]
    exact congrArg (Machine.offer _ k) (eq_withDead_iff.mp h.rest d)
  key_live := fun _ => h.key
  prev_live := h.prev
  blk_live := fun _ _ _ => h.blk
  ct_live := fun _ hw => ct (Prod.mk.inj (Option.some.inj hw)).2

end compute

/-- The loop of the encrypt direction. -/
theorem streamChunk_of_encrypt (c : Chunk) {s : State} (encrypts : s.dir = .encrypt) :
    streamChunk c s =
      if c.len = Config.blockSize then ceEncFull (pad8 c.bytes) s else if 1 ≤ c.len then ceEncTail c.bytes s else endOp s := by
  simp only [streamChunk, encrypts]

/-- The loop of the decrypt direction. -/
theorem streamChunk_of_decrypt (c : Chunk) {s : State} (decrypts : s.dir = .decrypt) :
    streamChunk c s =
      if c.len = Config.blockSize then ceDecFull (pad8 c.bytes) s else if 1 ≤ c.len then ceDecTail c.bytes s else endOp s := by
  simp only [streamChunk, decrypts]

section computations
variable {a b : State} (h : LiveAgree a b) (keylen : a.keylen = 64)
include h keylen

theorem ceIvgen_liveAgree (c : Chunk) : LiveAgree (ceIvgen c a) (ceIvgen c b) := by
  unfold ceIvgen
  split
  · exact (h.begin_compute keylen (pad8 c.bytes)).blockEnc.offer Vector.toList .ivgen nofun
  · exact raise_liveAgree h .entropySource

section loop
variable (stream : a.phase = .stream)
include stream

theorem ceEncFull_liveAgree (x : Block) : LiveAgree (ceEncFull x a) (ceEncFull x b) :=
  ((h.begin_compute keylen x).xorPrev stream).blockEnc.offer Vector.toList .encFull nofun

theorem ceEncTail_liveAgree (x : List Byte) : LiveAgree (ceEncTail x a) (ceEncTail x b) :=
  ((h.begin_compute keylen (pad8 x)).xorPrev stream).blockEnc.offer (firstBytes x.length) .encTail nofun

theorem ceDecTail_liveAgree (x : List Byte) : LiveAgree (ceDecTail x a) (ceDecTail x b) :=
  ((h.begin_compute keylen (pad8 x)).xorPrev stream).offer (firstBytes x.length) .decTail nofun

theorem ceDecFull_liveAgree (x : Block) : LiveAgree (ceDecFull x a) (ceDecFull x b) := by
  refine ComputeAgree.offer (((h.with_ct x).begin_compute keylen x).blockDec.xorPrev ?_) Vector.toList .decFull fun _ => ?_
  · simpa using stream
  · simp

theorem streamChunk_liveAgree (c : Chunk) : LiveAgree (streamChunk c a) (streamChunk c b) := by
  cases hd : a.dir with
  | encrypt =>
    rw [streamChunk_of_encrypt c hd, streamChunk_of_encrypt c (h.dir.trans hd)]
    split
    · exact ceEncFull_liveAgree h keylen stream _
    · split
      · exact ceEncTail_liveAgree h keylen stream _
      · exact endOp_liveAgree h
  | decrypt =>
    rw [streamChunk_of_decrypt c hd, streamChunk_of_decrypt c (h.dir.trans hd)]
    split
    · exact ceDecFull_liveAgree h keylen stream _
    · split
      · exact ceDecTail_liveAgree h keylen stream _
      · exact endOp_liveAgree h

end loop

end computations

theorem seedChunk_liveAgree {a b : State} (h : LiveAgree a b) (c : Chunk) : LiveAgree (seedChunk c a) (seedChunk c b) := by
  unfold seedChunk
  split
  · exact ceIvload_liveAgree h _
  · exact raise_liveAgree h .io

/-! Moves. -/

section moves
variable {a b : State} (inv : RunInv a) (h : LiveAgree a b)
include inv h

theorem afterRead_liveAgree {k : Reader} {r : InAnswer} (hp : a.pending = some (.readDone k r)) :
    LiveAgree (afterRead k r a) (afterRead k r b) := by
  have fits := inv.pending_fits
  rw [pendingFits, hp] at fits
  cases r with
  | err => exact raise_liveAgree h .io
  | data c =>
    cases k with
    | bare => exact fits.1.elim
    | stepSeed => exact seedChunk_liveAgree h.answer_taken c
    | stepStream => exact streamChunk_liveAgree h.answer_taken (inv.key_loaded (inv.busy_of_pending hp)) fits.1 c

theorem advance_liveAgree {p : Pending} (hp : a.pending = some p) : LiveAgree (advance p a) (advance p b) := by
  cases p with
  | draw => exact askDraw_liveAgree h
  | drawn c => exact ceIvgen_liveAgree h.answer_taken (inv.key_loaded (inv.busy_of_pending hp)) c
  | read k => exact askRead_liveAgree h k
  | readDone k r => exact afterRead_liveAgree inv h hp
  | offer v k => exact askWrite_liveAgree h (.inl hp)
  | write v k => exact askWrite_liveAgree h (.inr hp)
  | written v k r =>
    cases r with
    | ok => exact finish_liveAgree h hp v.length
    | short | err => exact raise_liveAgree h .io

/-- The core's move depends on live fields only. -/
theorem coreMove_liveAgree : LiveAgree (coreMove a) (coreMove b) := by
  unfold coreMove
  simp only [h.pending, h.phase]
  cases hp : a.pending with
  | some p => exact advance_liveAgree inv h hp
  | none =>
    cases hph : a.phase with
    | seed =>
      simp only [seedFirst, h.dir]
      cases a.dir with
      | encrypt => exact askDraw_liveAgree h
      | decrypt => exact askRead_liveAgree h .stepSeed
    | stream => exact askRead_liveAgree h .stepStream
    | idle | done | fail => exact h

end moves

/-! Host actions and reset. -/

/-- A key of 64 bytes leaves no byte of the key before it. -/
theorem storeKey_full (old old' : Key) {key : List Byte} (full : key.length = 64) : storeKey old key = storeKey old' key := by
  ext1 j hj
  simp [storeKey_get, full, hj]

section host
variable {a b : State} (h : LiveAgree a b)
include h

theorem startOp_liveAgree (d : Dir) : LiveAgree (startOp d a) (startOp d b) := by
  cases busy : a.phase.busy with
  | true => rwa [startOp_of_busy d busy, startOp_of_busy d (h.phase ▸ busy)]
  | false =>
    by_cases checked : a.keylen = 64
    · rw [startOp_of_key d busy checked, startOp_of_key d (h.phase ▸ busy) (h.keylen ▸ checked)]
      exact IgnoresDead.liveAgree h
        (f := fun s => { s with dir := d, count := 0, cause := .none, log := .started d :: s.log, phase := .seed })
        (fun _ _ => rfl) id nofun fun _ => id
    · rw [startOp_of_bad_key d busy checked, startOp_of_bad_key d (h.phase ▸ busy) (h.keylen ▸ checked)]
      exact IgnoresDead.liveAgree h
        (f := fun s => raise .keyLength { s with dir := d, count := 0, cause := .none, log := .started d :: s.log })
        (fun _ _ => rfl) id nofun nofun

theorem readStatus_liveAgree : LiveAgree (readStatus a) (readStatus b) :=
  IgnoresDead.liveAgree h (f := readStatus) (fun _ _ => rfl) id id fun _ => id

/-- Reset forgets every field that can be dead. -/
theorem resetCore_liveAgree : LiveAgree (resetCore a) (resetCore b) := by
  have same : resetCore b = resetCore a := by rw [h.eq_withDead]; rfl
  rw [same]
  exact ⟨rfl, fun _ => rfl, fun _ => rfl, fun _ _ _ => rfl, fun _ _ => rfl⟩

/-- A key may differ as long as it does not have 64 bytes. -/
theorem LiveAgree.with_key (n : Nat) {k k' : Key} (full : n = 64 → k' = k) :
    LiveAgree { a with keylen := n, key := k } { b with keylen := n, key := k' } where
  rest := eq_withDead_iff.mpr fun d => congrArg (fun s : State => { s with keylen := n }) (eq_withDead_iff.mp h.eq_withDead d)
  key_live := full
  prev_live := h.prev_live
  blk_live := h.blk_live
  ct_live := h.ct_live

end host

/-- Settles O50: each kind of move depends on live fields only; the key is read by a busy core only, which has one of 64 bytes. -/
theorem noUnspecifiedValueIsEverRead : Obligations.NoUnspecifiedValueIsEverRead := by
  intro s s' t inv h hstep
  have answers {u u' : State} (hs : step s = .next u) (hs' : step s' = .next u') (agree : LiveAgree u u') :
      ∃ t', step s' = .next t' ∧ LiveAgree t t' := by
    obtain rfl : u = t := Host.Outcome.next.inj (hs.symm.trans hstep)
    exact ⟨u', hs', agree⟩
  have core {q : List Slot} (inv : RunInv { s with sched := q }) (turn : coreTurn s q) : ∃ t', step s' = .next t' ∧ LiveAgree t t' :=
    answers (step_coreTurn turn rfl) (step_coreTurn (by rwa [coreTurn, h.sched]) rfl) (coreMove_liveAgree inv (h.with_sched q))
  cases move_of_step (headNotSelect_of_noSelect inv.no_select) hstep with
  | load key q head =>
    have head' := h.sched.trans head
    cases busy : s.phase.busy with
    | true => exact answers (step_load_busy head busy) (step_load_busy head' (h.phase ▸ busy)) (h.with_sched q)
    | false =>
      exact answers (step_load_idle head busy) (step_load_idle head' (h.phase ▸ busy))
        ((h.with_sched q).with_key key.length (storeKey_full s'.key s.key))
  | start d q head =>
    exact answers (step_start head) (step_start (h.sched.trans head)) (startOp_liveAgree (h.with_sched q) d)
  | sr q head => exact answers (step_sr head) (step_sr (h.sched.trans head)) (readStatus_liveAgree (h.with_sched q))
  | reset q head => exact answers (step_reset head) (step_reset (h.sched.trans head)) (resetCore_liveAgree (h.with_sched q))
  | core q turn =>
    obtain head | ⟨ended, rfl⟩ := turn
    · exact core (inv.next_slot head) (.inl head)
    · exact core (q := []) (inv.with_sched nofun) (.inr ⟨ended, rfl⟩)

/-! ### Who writes the key -/

/-- `t` has the key of `s`. -/
structure KeyKept (s t : State) : Prop where
  key : t.key = s.key
  keylen : t.keylen = s.keylen

theorem KeyKept.refl (s : State) : KeyKept s s := ⟨rfl, rfl⟩

theorem KeyKept.trans {s t u : State} (h : KeyKept s t) (h' : KeyKept t u) : KeyKept s u :=
  ⟨h'.key.trans h.key, h'.keylen.trans h.keylen⟩

theorem advance_keyKept (p : Pending) (s : State) : KeyKept s (advance p s) := by
  obtain ⟨key, keylen, -⟩ := advance_frame p s
  exact ⟨key, keylen⟩

theorem carryOn_keyKept (n : Nat) (s : State) : KeyKept s (carryOn n s) := by
  induction n generalizing s with
  | zero => exact .refl s
  | succ n ih =>
    unfold carryOn
    split
    · exact .refl s
    · split
      · exact .refl s
      · exact (advance_keyKept _ s).trans (ih _)

theorem KeyKept.complete {s t : State} (h : KeyKept s t) : KeyKept s (complete t) := h.trans (carryOn_keyKept 3 t)

theorem seedFirst_keyKept (s : State) : KeyKept s (seedFirst s) := by
  unfold seedFirst
  split
  · exact advance_keyKept .draw s
  · exact advance_keyKept (.read .stepSeed) s

theorem startOp_keyKept (d : Dir) (s : State) : KeyKept s (startOp d s) := by
  cases busy : s.phase.busy with
  | true => rw [startOp_of_busy d busy]; exact .refl s
  | false =>
    by_cases checked : s.keylen = 64
    · rw [startOp_of_key d busy checked]; exact ⟨rfl, rfl⟩
    · rw [startOp_of_bad_key d busy checked]; exact ⟨rfl, rfl⟩

theorem keyCheckThen_keyKept (s : State) : KeyKept s (keyCheckThen id s) := by
  unfold keyCheckThen
  split <;> exact ⟨rfl, rfl⟩

theorem ceEncFull_keyKept (b : Block) (s : State) : KeyKept s (ceEncFull b s) := ⟨by simp [ceEncFull], by simp [ceEncFull]⟩
theorem ceEncTail_keyKept (b : List Byte) (s : State) : KeyKept s (ceEncTail b s) := ⟨by simp [ceEncTail], by simp [ceEncTail]⟩
theorem ceDecFull_keyKept (b : Block) (s : State) : KeyKept s (ceDecFull b s) := ⟨by simp [ceDecFull], by simp [ceDecFull]⟩

theorem CoreMove.keyKept {s t : State} (m : CoreMove s t) : KeyKept s t := by
  cases m with
  | stay _ _ eq => exact eq ▸ .refl s
  | advance p _ eq => exact eq ▸ advance_keyKept p s
  | draw _ _ _ eq => exact eq ▸ advance_keyKept .draw s
  | seed _ _ _ eq => exact eq ▸ advance_keyKept (.read .stepSeed) s
  | stream _ _ eq => exact eq ▸ advance_keyKept (.read .stepStream) s

/-- Whatever next state `r` answers, it has the key of `s`. -/
def KeepsKey (s : State) (r : Result) : Prop := ∀ t, r = .next t → KeyKept s t

theorem KeyKept.next {s t : State} (h : KeyKept s t) : KeepsKey s (.next t) := fun _ e => Host.Outcome.next.inj e ▸ h

/-- A meaning that checks its operand first keeps the key as well. -/
theorem KeyKept.guard {s t : State} (h : KeyKept s t) (wf : Bool) (m : String) :
    KeepsKey s (if wf then .next t else .refused (.illFormed m)) := by
  cases wf with
  | false => exact fun _ e => nomatch e
  | true => exact h.next

/-- Every operation but `KS.LOAD` leaves the key alone. -/
theorem exec_keepsKey {i : Instr} (not_load : ∀ key, i ≠ .ksLoad key) (s : State) : KeepsKey s (exec i s) := by
  cases i with
  | ksLoad key => exact absurd rfl (not_load key)
  | rf | ksView | ceIvload | sfEnd | sr => exact KeyKept.next ⟨rfl, rfl⟩
  | frE r => exact KeyKept.next (roundE_eq r s ▸ ⟨rfl, rfl⟩)
  | frD r => exact KeyKept.next (roundD_eq r s ▸ ⟨rfl, rfl⟩)
  | btEnc => exact KeyKept.next ⟨blockEnc_key s, blockEnc_keylen s⟩
  | btDec => exact KeyKept.next ⟨blockDec_key s, blockDec_keylen s⟩
  | ksCheck => exact (keyCheckThen_keyKept s).next
  | start d => exact (startOp_keyKept d s).next
  | ceIvgen => exact (advance_keyKept .draw s).complete.next
  | sfRead => exact (advance_keyKept (.read .bare) s).complete.next
  | sfStepStream => exact (advance_keyKept (.read .stepStream) s).complete.next
  | sfStepSeed => exact (seedFirst_keyKept s).complete.next
  | sfWrite v => exact (advance_keyKept (.write v .bare) s).complete.guard (writeLength v) _
  | ceEncFull b => exact (ceEncFull_keyKept b s).complete.next
  | ceEncTail b => exact (ceEncTail_keyKept b s).complete.guard (tailLength b) _
  | ceDecFull b => exact (ceDecFull_keyKept b s).complete.next
  | ceDecTail b => exact KeyKept.guard (KeyKept.complete (s := s) (t := ceDecTail b s) ⟨rfl, rfl⟩) (tailLength b) _
  | sfFault src =>
    cases src with
    | shortFirstRead b => exact KeyKept.guard (s := s) (t := raise .io s) ⟨rfl, rfl⟩ (shortLength b) _
    | raised e => exact KeyKept.next (t := raise e s) ⟨rfl, rfl⟩

/-- Settles O21: of the moves of a step only an accepted `KS.LOAD` and a reset are not `KeyKept`. -/
theorem keyIsWrittenOnlyByLoadAndReset : Obligations.KeyIsWrittenOnlyByLoadAndReset := by
  constructor
  · intro i s t h not_load
    obtain ⟨key, keylen⟩ := exec_keepsKey not_load s t h
    exact ⟨key, keylen⟩
  · intro s t hstep hn
    cases move_of_step hn hstep with
    | load key q head eq =>
      cases busy : s.phase.busy with
      | true => simp [eq, busy]
      | false => exact .inr (.inl ⟨rfl, key, q, head⟩)
    | start d q head eq =>
      obtain ⟨key, keylen⟩ := startOp_keyKept d { s with sched := q }
      exact .inl (eq ▸ ⟨key, keylen⟩)
    | sr q head eq => exact .inl (eq ▸ ⟨rfl, rfl⟩)
    | reset q head => exact .inr (.inr ⟨q, head⟩)
    | core q _ move => exact .inl ⟨move.keyKept.key, move.keyKept.keylen⟩

/-! ### What the host sees -/

/-- Settles O43: `SR` returns the flags and the count that it may show, and nothing else. -/
theorem srRevealsNoKeyOrBuffer : Obligations.SrRevealsNoKeyOrBuffer := by
  intro s s' t t' dir phase cause count free hs hs'
  obtain rfl : readStatus s = t := Host.Outcome.next.inj hs
  obtain rfl : readStatus s' = t' := Host.Outcome.next.inj hs'
  have same_status : s.status = s'.status := by simp only [State.status, dir, cause, phase]
  have same_count : s.countRead = s'.countRead := by simp only [State.countRead, phase, cause, count, free]
  simp only [readStatus, same_status, same_count]

/-- The fields of `STATUS` when it reads 0x34. -/
theorem status_fields_of_0x34 :
    ∀ (d : BitVec 1) (c : BitVec 2) (p : BitVec 3), 0#2 ++ d ++ c ++ p = (0x34 : BitVec 8) → d = 1 ∧ c = 2 := by
  decide

/-- 0x34 is the status of a decrypt operation with an entropy failure. -/
theorem decrypt_entropy_of_status {s : State} (h : s.status = 0x34) : s.dir = .decrypt ∧ s.cause = .entropySourceError := by
  obtain ⟨dir, cause⟩ := status_fields_of_0x34 _ _ _ h
  constructor
  · cases hd : s.dir with
    | encrypt => simp [hd, Dir.code] at dir
    | decrypt => rfl
  · cases hc : s.cause with
    | none | keyLengthError | ioError => simp [hc, Cause.code] at cause
    | entropySourceError => rfl

/-- Settles O52: 0x34 needs an entropy failure while decrypting, which `RunInv` excludes; each flag is one value of `PHASE`, or two. -/
theorem statusNeverShowsDecryptEntropyFailure : Obligations.StatusNeverShowsDecryptEntropyFailure := by
  intro s
  refine ⟨fun inv h => ?_, ?_⟩
  · obtain ⟨decrypts, entropy⟩ := decrypt_entropy_of_status h
    exact absurd (inv.entropy_encrypt_only entropy) (by simp [decrypts])
  · simp only [State.busyFlag, State.doneFlag, State.failFlag]
    cases s.phase <;> decide

/-! ### Reset -/

theorem logReset_of_write {s : State} {v : List Byte} {k : After} (h : s.pending = some (.write v k)) :
    logReset s = .reset :: .dropped v :: s.log := by
  simp [logReset, h]

theorem logReset_of_no_write {s : State} (h : ∀ v k, s.pending ≠ some (.write v k)) : logReset s = .reset :: s.log := by
  unfold logReset
  split
  case h_1 v k hp => exact absurd hp (h v k)
  all_goals rfl

/-- Settles O45: the step is `resetCore`, whose history is `logReset`. -/
theorem resetGivesTheResetState : Obligations.ResetGivesTheResetState := by
  refine ⟨⟨rfl, rfl, rfl, rfl, rfl, rfl⟩, fun s q head => ?_⟩
  refine ⟨_, step_reset head, rfl, rfl, rfl, rfl, rfl, rfl, rfl, rfl, rfl, rfl, ?_, ?_⟩
  · exact fun v k waits => logReset_of_write (s := { s with sched := q }) waits
  · exact fun no_write => logReset_of_no_write (s := { s with sched := q }) no_write

end Sys2Proof.Machine

/-! # The memory family (spec/20_memory.md): a failed write, a silent port, a transaction that had to wait -/

namespace Sys2Proof.Machine

/-! ### A silent port -/

theorem askDraw_of_silence {s : State} (h : s.rngQ.head? = none ∨ s.rngQ.head? = some none) :
    askDraw s = { s with rngQ := s.rngQ.tail, pending := some .draw } := by
  obtain ⟨c, q, answered, -⟩ | ⟨-, e⟩ := askDraw_cases s
  · simp [answered] at h
  · exact e

theorem askRead_of_silence (k : Reader) {s : State} (h : s.inQ.head? = none ∨ s.inQ.head? = some none) :
    askRead k s = { s with inQ := s.inQ.tail, pending := some (.read k) } := by
  obtain ⟨a, q, answered, -⟩ | ⟨-, e⟩ := askRead_cases k s
  · simp [answered] at h
  · exact e

theorem askWrite_of_silence (v : List Byte) (k : After) {s : State} (h : s.outQ.head? = none ∨ s.outQ.head? = some none) :
    askWrite v k s = { s with outQ := s.outQ.tail, pending := some (.write v k) } := by
  obtain ⟨a, q, answered, -⟩ | ⟨-, e⟩ := askWrite_cases v k s
  · simp [answered] at h
  · exact e

/-- Settles O33: the move asks the silent port again, and the transaction that it leaves waiting is the one that waited before. -/
theorem silentPortHoldsTheCore : Obligations.SilentPortHoldsTheCore := by
  intro s p _ hs hp
  refine ⟨?_, ?_, ?_⟩
  · rintro rfl silent
    rw [step_advance hs hp, advance, askDraw_of_silence silent, ← hp]
  · rintro k rfl silent
    rw [step_advance hs hp, advance, askRead_of_silence k silent, ← hp]
  · rintro v k rfl silent
    rw [step_advance hs hp, advance, askWrite_of_silence v k silent, ← hp]

/-! ### No computation reads the answers of the output port -/

theorem blockEnc_outQ_comm (s : State) (q : List (Option OutAnswer)) : blockEnc { s with outQ := q } = { blockEnc s with outQ := q } := by
  simp only [blockEnc, encRounds, List.foldl, roundE_eq]

theorem blockDec_outQ_comm (s : State) (q : List (Option OutAnswer)) : blockDec { s with outQ := q } = { blockDec s with outQ := q } := by
  simp only [blockDec, decRounds, List.foldl, roundD_eq]

theorem ceEncFull_outQ_comm (b : Block) (s : State) (q : List (Option OutAnswer)) :
    ceEncFull b { s with outQ := q } = { ceEncFull b s with outQ := q } :=
  congrArg (fun x : State => offer x.blk.toList .encFull x) (blockEnc_outQ_comm { s with blk := xorBlock b s.prev } q)

theorem ceEncTail_outQ_comm (b : List Byte) (s : State) (q : List (Option OutAnswer)) :
    ceEncTail b { s with outQ := q } = { ceEncTail b s with outQ := q } :=
  congrArg (fun x : State => offer (firstBytes b.length x.blk) .encTail x) (blockEnc_outQ_comm { s with blk := xorBlock (pad8 b) s.prev } q)

theorem ceDecFull_outQ_comm (b : Block) (s : State) (q : List (Option OutAnswer)) :
    ceDecFull b { s with outQ := q } = { ceDecFull b s with outQ := q } := by
  unfold ceDecFull offer
  dsimp only
  rw [blockDec_outQ_comm { s with ct := b, blk := b } q]

theorem ceIvgen_outQ_comm (c : Chunk) (s : State) (q : List (Option OutAnswer)) :
    ceIvgen c { s with outQ := q } = { ceIvgen c s with outQ := q } := by
  unfold ceIvgen
  split
  · exact congrArg (fun x : State => offer x.blk.toList .ivgen x) (blockEnc_outQ_comm { s with blk := pad8 c.bytes } q)
  · rfl

/-! ### Operations that write -/

@[simp] theorem afterWrite_pending (v : List Byte) (k : After) (a : OutAnswer) (s : State) : (afterWrite v k a s).pending = none := by
  cases a with
  | ok => simp
  | short | err => rfl

/-- Whatever the sink will answer, `i` performed in `s` comes to its write: it offers the bytes `v` for `k` in the state `x`, and goes on
from there as the sink answers. -/
def ComesToWrite (i : Instr) (s : State) (v : List Byte) (k : After) (x : State) : Prop :=
  ∃ n, ∀ q, exec i { s with outQ := q } = .next (carryOn (n + 1) (askWrite v k { x with outQ := q }))

/-- An operation whose computation ends in the state `x`, where the bytes `v` are offered. -/
theorem comesToWrite_of_offer {i : Instr} {s x : State} {v : List Byte} {k : After} (n : Nat)
    (meaning : ∀ q, exec i { s with outQ := q } = .next (carryOn (n + 2) { x with outQ := q }))
    (offers : x.pending = some (.offer v k)) : ComesToWrite i s v k x :=
  ⟨n, fun q => (meaning q).trans (congrArg _ (carryOn_move (n + 1) _ (.offer v k) offers rfl))⟩

/-- An operation that is the computation `compute` and what follows its offer. -/
theorem comesToWrite_of_computation {i : Instr} {compute : State → State} {s : State} {v : List Byte} {k : After}
    (meaning : ∀ s, exec i s = .next (complete (compute s))) (comm : ∀ q, compute { s with outQ := q } = { compute s with outQ := q })
    (offers : (compute s).pending = some (.offer v k)) : ComesToWrite i s v k (compute s) :=
  comesToWrite_of_offer 1 (fun q => comm q ▸ meaning _) offers

/-- A write that waits and is then answered: the answer is one step, what follows the write is the second. -/
theorem runSteps_of_waiting_write {s : State} {v : List Byte} {k : After} {a : OutAnswer} {q : List (Option OutAnswer)}
    (hs : s.sched = []) (hp : s.pending = some (.write v k)) (answered : s.outQ = some a :: q) :
    runSteps 2 s = .next (afterWrite v k a { s with outQ := q, pending := some (.written v k a), log := .write v a :: s.log }) := by
  have asked_again := (step_advance hs hp).trans (congrArg _ (askWrite_of_answer v k answered))
  rw [runSteps_succ asked_again]
  refine runSteps_succ (step_advance (p := .written v k a) ?_ rfl)
  exact hs

section comesToWrite
variable {i : Instr} {s x : State} {v : List Byte} {k : After} (h : ComesToWrite i s v k x)
include h

/-- The write is answered at once. -/
theorem ComesToWrite.answered (a : OutAnswer) (q : List (Option OutAnswer)) :
    exec i { s with outQ := some a :: q } =
      .next (afterWrite v k a { x with outQ := q, pending := some (.written v k a), log := .write v a :: x.log }) := by
  obtain ⟨n, hn⟩ := h
  rw [hn, askWrite_of_answer v k rfl]
  exact congrArg _ ((carryOn_move n _ (.written v k a) rfl rfl).trans (carryOn_ended n _ (afterWrite_pending ..)))

/-- The write waits. -/
theorem ComesToWrite.silent (q : List (Option OutAnswer)) :
    exec i { s with outQ := none :: q } = .next { x with outQ := q, pending := some (.write v k) } := by
  obtain ⟨n, hn⟩ := h
  rw [hn, askWrite_of_silence v k (.inr rfl), carryOn_waiting _ _ (.write v k) rfl rfl]
  rfl

/-- A write that waited one step and is then answered leads to the state of the immediate answer. -/
theorem ComesToWrite.delayed (hs : x.sched = []) (a : OutAnswer) (q : List (Option OutAnswer)) :
    ∃ t w, exec i { s with outQ := some a :: q } = .next t ∧ exec i { s with outQ := none :: some a :: q } = .next w ∧
      w.pending = some (.write v k) ∧ runSteps 2 w = .next t :=
  ⟨_, _, h.answered a q, h.silent (some a :: q), rfl, runSteps_of_waiting_write (s := { x with outQ := _, pending := _ }) hs rfl rfl⟩

end comesToWrite

theorem sameButHidden.sched {a b : State} (h : sameButHidden a b) : a.sched = b.sched := by rw [← h]
theorem sameButHidden.log {a b : State} (h : sameButHidden a b) : a.log = b.log := by rw [← h]

/-- The four operations that take a payload chunk to the sink. -/
def isDataOp (i : Instr) : Prop :=
  (∃ b, i = .ceEncFull b) ∨ (∃ b, i = .ceEncTail b) ∨ (∃ b, i = .ceDecFull b) ∨ (∃ b, i = .ceDecTail b)

/-- Every data operation comes to its write, and has written nothing but `BLK`, `CT` and the hidden state before it. -/
theorem comesToWrite_of_isDataOp {i : Instr} (data : isDataOp i) (wf : i.wf = true) (s : State) :
    ∃ v k x, ComesToWrite i s v k x ∧ sameButHidden x { s with blk := x.blk, ct := x.ct, pending := x.pending } := by
  obtain ⟨b, rfl⟩ | ⟨b, rfl⟩ | ⟨b, rfl⟩ | ⟨b, rfl⟩ := data
  · exact ⟨_, _, _, comesToWrite_of_computation (fun _ => rfl) (ceEncFull_outQ_comm b s) rfl, by simp [sameButHidden_iff, ceEncFull]⟩
  · exact ⟨_, _, _, comesToWrite_of_computation (fun _ => if_pos wf) (ceEncTail_outQ_comm b s) rfl, by simp [sameButHidden_iff, ceEncTail]⟩
  · exact ⟨_, _, _, comesToWrite_of_computation (fun _ => rfl) (ceDecFull_outQ_comm b s) rfl, by simp [sameButHidden_iff, ceDecFull]⟩
  · exact ⟨_, _, _, comesToWrite_of_computation (compute := ceDecTail b) (fun _ => if_pos wf) (fun _ => rfl) rfl, rfl⟩

/-- `SF.WRITE` is its write and nothing before it. -/
theorem comesToWrite_sfWrite {v : List Byte} (wf : (Instr.sfWrite v).wf = true) (s : State) :
    ComesToWrite (.sfWrite v) s v .bare s :=
  ⟨2, fun _ => if_pos wf⟩

/-- The operations that begin with no transaction but their write. -/
theorem comesToWrite_of_writer {i : Instr} (writer : isDataOp i ∨ ∃ v, i = .sfWrite v) (wf : i.wf = true) (s : State) :
    ∃ v k x, ComesToWrite i s v k x ∧ x.sched = s.sched := by
  obtain data | ⟨v, rfl⟩ := writer
  · obtain ⟨v, k, x, h, frame⟩ := comesToWrite_of_isDataOp data wf s
    exact ⟨v, k, x, h, frame.sched⟩
  · exact ⟨v, .bare, s, comesToWrite_sfWrite wf s, rfl⟩

/-- A full draw is transformed, and the block offered. -/
theorem ceIvgen_offers {c : Chunk} (full : c.len = Config.blockSize) (s : State) :
    ∃ v, (ceIvgen c s).pending = some (.offer v .ivgen) :=
  ⟨(blockEnc { s with blk := pad8 c.bytes }).blk.toList, by rw [ceIvgen, if_pos full, offer_pending]⟩

/-- `CE.IVGEN` whose draw is answered goes on with its computation. -/
theorem exec_ceIvgen_of_draw {s : State} {c : Chunk} {rq : List (Option Chunk)} (drawn : s.rngQ = some c :: rq) :
    exec .ceIvgen s = .next (carryOn 2 (ceIvgen c { s with rngQ := rq, pending := none, log := .draw c :: s.log })) := by
  rw [exec, execCeIvgen, askDraw_of_answer drawn]
  exact congrArg _ (carryOn_move 2 _ (.drawn c) rfl rfl)

/-- `CE.IVGEN` with a full draw comes to the write of the transformed block. -/
theorem comesToWrite_ceIvgen {s : State} {c : Chunk} {rq : List (Option Chunk)} (drawn : s.rngQ = some c :: rq)
    (full : c.len = Config.blockSize) : ∃ v x, ComesToWrite .ceIvgen s v .ivgen x ∧ x.sched = s.sched := by
  have meaning (q : List (Option OutAnswer)) := exec_ceIvgen_of_draw (s := { s with outQ := q }) drawn
  obtain ⟨v, offers⟩ := ceIvgen_offers full { s with rngQ := rq, pending := none, log := .draw c :: s.log }
  obtain ⟨-, -, -, sched, -⟩ := advance_frame (.drawn c) { s with rngQ := rq, log := .draw c :: s.log }
  exact ⟨v, _, comesToWrite_of_offer 0 (fun q => ceIvgen_outQ_comm c _ q ▸ meaning q) offers, sched⟩

/-- Settles O32: the operation offers the same bytes whatever the answer will be, and a failed write does `raise .io` and nothing else. -/
theorem failedWriteAborts : Obligations.FailedWriteAborts := by
  intro s a oq failed hout i data wf
  obtain ⟨v, k, x, h, frame⟩ := comesToWrite_of_isDataOp data wf s
  have same : ({ s with outQ := some a :: oq } : State) = s := by rw [← hout]
  have aborts := h.answered a oq
  rw [same, afterWrite_fail v k a _ failed] at aborts
  refine ⟨_, _, v, aborts, h.answered .ok oq, by simp [frame.log], ?_⟩
  simp only [afterWrite_ok, finish_blk, finish_ct]
  exact congrArg
    (fun y : State => { y with cause := .ioError, phase := .fail, pending := none, outQ := oq, log := .write v a :: y.log }) frame

/-! ### A transaction that had to wait -/

/-- With the host silent, the core's moves carry an operation in progress on from its next move as `complete` does. -/
theorem runSteps_of_pending {w : State} {p : Pending} (hs : w.sched = []) (hp : w.pending = some p) :
    ∃ n, n ≤ 4 ∧ runSteps n w = .next (complete (advance p w)) := by
  obtain ⟨-, -, -, sched, -⟩ := advance_frame p w
  obtain ⟨m, hm, e⟩ := runSteps_carryOn 3 (advance p w) (sched.trans hs)
  exact ⟨m + 1, by omega, (runSteps_succ (step_advance hs hp)).trans e⟩

/-- The three operations that begin with a read. -/
theorem exec_of_reader {i : Instr} {s : State} (reads : i = .sfRead ∨ i = .sfStepStream ∨ (i = .sfStepSeed ∧ s.dir = .decrypt)) :
    ∃ k, ∀ q, exec i { s with inQ := q } = .next (complete (askRead k { s with inQ := q })) := by
  obtain rfl | rfl | ⟨rfl, decrypts⟩ := reads
  · exact ⟨.bare, fun _ => rfl⟩
  · exact ⟨.stepStream, fun _ => rfl⟩
  · exact ⟨.stepSeed, fun q => by simp [exec, execSfStepSeed, seedFirst, decrypts]⟩

/-- Settles O34: after the silent step the operation is where it was but for its waiting transaction, which the core's moves ask again;
the answered request does not look at what was pending, so the rest of the operation is the same. -/
theorem delayedTransactionCompletesTheOperation : Obligations.DelayedTransactionCompletesTheOperation := by
  refine ⟨?_, ?_, ?_, ?_⟩
  · intro s i a oq hs wf op
    obtain ⟨v, k, x, h, sched⟩ := comesToWrite_of_writer (by simpa only [isDataOp, or_assoc] using op) wf s
    obtain ⟨t, w, delayed⟩ := h.delayed (sched.trans hs) a oq
    exact ⟨t, w, v, k, delayed⟩
  · intro s iv a rq oq hs drawn
    have full : (chunkOfBlock iv).len = Config.blockSize := by simp [Chunk.len, chunkOfBlock]
    obtain ⟨v, x, h, sched⟩ := comesToWrite_ceIvgen drawn full
    obtain ⟨t, w, delayed⟩ := h.delayed (sched.trans hs) a oq
    exact ⟨t, w, v, delayed⟩
  · intro s c rq hs
    obtain ⟨n, hn, e⟩ := runSteps_of_pending (w := { s with rngQ := some c :: rq, pending := some .draw }) hs rfl
    exact ⟨_, _, n, rfl, rfl, rfl, hn, e⟩
  · intro s i a q hs reads
    obtain ⟨k, meaning⟩ := exec_of_reader reads
    obtain ⟨n, hn, e⟩ := runSteps_of_pending (w := { s with inQ := some a :: q, pending := some (.read k) }) hs rfl
    exact ⟨_, _, k, n, meaning _, meaning _, rfl, hn, e⟩

end Sys2Proof.Machine

/-! # The encoding family (spec/30_encoding.md): the map of `SEL`, the decoder against the encoder, what a selected descriptor runs -/

namespace Sys2Proof.Machine

/-! ### `SEL` by its fields (R85) and the map of R90(a) by them -/

@[simp] theorem dirOfCode_code (d : Dir) : dirOfCode d.code = d := by cases d <;> rfl

@[simp] theorem selDir_selWord (d : Dir) (seed : Bool) (n : Nat) : selDir (selWord d seed n) = d := by
  rw [selDir, selWord, BitVec.extractLsb'_append_eq_of_le (by decide), BitVec.extractLsb'_append_eq_left, dirOfCode_code]

theorem selLen_selWord (d : Dir) (seed : Bool) {n : Nat} (fits : n < 16) : selLen (selWord d seed n) = n := by
  rw [selLen, selWord, BitVec.extractLsb'_append_eq_right, BitVec.toNat_ofNat, Nat.mod_eq_of_lt fits]

/-- Every `SEL` is made of its three fields. -/
theorem exists_selWord (sel : BitVec 6) : ∃ d seed n, n < 16 ∧ sel = selWord d seed n :=
  ⟨selDir sel, sel[4], selLen sel, BitVec.isLt _, by revert sel; decide⟩

/-- The row of R90(a) for each value of `DIR`, `SEED` and `LEN`; `none` for the lengths that cannot arise (R91). -/
def selClass (d : Dir) (seed : Bool) (n : Nat) : Option SelClass :=
  match d, seed with
  | .encrypt, true => some .ivgen
  | .decrypt, true => if n ≤ 7 then some .shortFirstRead else if n = 8 then some .ivload else none
  | .encrypt, false => if n = 0 then some .endOfStream else if n ≤ 7 then some .encTail else if n = 8 then some .encFull else none
  | .decrypt, false => if n = 0 then some .endOfStream else if n ≤ 7 then some .decTail else if n = 8 then some .decFull else none

theorem selectSel_selWord (d : Dir) (seed : Bool) : ∀ n < 16, selectSel (selWord d seed n) = selClass d seed n := by
  cases d <;> cases seed <;> decide

/-! ### Operand bytes -/

@[simp] theorem takeBytes_eq_ok {b : Byte} {n : Nat} {ops : List Byte} {k : List Byte → Instr} {i : Instr} :
    takeBytes b n ops k = .ok i ↔ ops.length = n ∧ i = k ops := by
  unfold takeBytes
  split <;> simp_all [eq_comm]

@[simp] theorem takeNone_eq_ok {b : Byte} {ops : List Byte} {i j : Instr} : takeNone b ops i = .ok j ↔ ops = [] ∧ j = i := by
  change takeBytes b 0 ops (fun _ => i) = .ok j ↔ _
  rw [takeBytes_eq_ok, List.length_eq_zero_iff]

@[simp] theorem takeBlock_eq_ok {b : Byte} {ops : List Byte} {k : Block → Instr} {i : Instr} :
    takeBlock b ops k = .ok i ↔ ops.length = 8 ∧ i = k (pad8 ops) := takeBytes_eq_ok

/-- A list of eight bytes is its block. -/
theorem toList_pad8 {b : List Byte} (full : b.length = 8) : (pad8 b).toList = b := by
  apply List.ext_getElem
  · simp [full]
  · intro j _ hj
    simp [pad8, hj]

/-! ### The operation of a chunk -/

theorem tailLength_iff {b : List Byte} : tailLength b = true ↔ 1 ≤ b.length ∧ b.length ≤ 7 := by simp [tailLength]

theorem writeLength_iff {v : List Byte} : writeLength v = true ↔ 1 ≤ v.length ∧ v.length ≤ 8 := by simp [writeLength]

theorem shortLength_iff {b : List Byte} : shortLength b = true ↔ b.length ≤ 7 := decide_eq_true_iff

/-- The operation of a full chunk in the direction `d`. -/
def fullOp : Dir → Block → Instr
  | .encrypt, b => .ceEncFull b
  | .decrypt, b => .ceDecFull b

/-- The operation of a tail in the direction `d`. -/
def tailOp : Dir → List Byte → Instr
  | .encrypt, b => .ceEncTail b
  | .decrypt, b => .ceDecTail b

/-- The operation that the loop performs with a chunk (R90(a), 43_stream_framer.md R164). -/
def streamOp (d : Dir) (b : List Byte) : Instr :=
  if b.length = 8 then fullOp d (pad8 b) else if 1 ≤ b.length then tailOp d b else .sfEnd d

/-- The operation that the IV step of the decrypt direction performs with its chunk (R90(a), 43_stream_framer.md R163). -/
def seedOp (b : List Byte) : Instr := if b.length = 8 then .ceIvload (pad8 b) else .sfFault (.shortFirstRead b)

/-- A chunk is empty, a tail, or full. -/
theorem chunk_cases {b : List Byte} (h : b.length ≤ 8) : b = [] ∨ tailLength b = true ∨ b.length = 8 := by
  rw [← List.length_eq_zero_iff, tailLength_iff]
  omega

theorem streamOp_nil (d : Dir) : streamOp d [] = .sfEnd d := rfl

theorem streamOp_tail (d : Dir) {b : List Byte} (tail : tailLength b = true) : streamOp d b = tailOp d b := by
  obtain ⟨low, high⟩ := tailLength_iff.1 tail
  rw [streamOp, if_neg (by omega), if_pos low]

theorem streamOp_full (d : Dir) {b : List Byte} (full : b.length = 8) : streamOp d b = fullOp d (pad8 b) := if_pos full

theorem streamOp_toList (d : Dir) (b : Block) : streamOp d b.toList = fullOp d b := by simp [streamOp]

theorem seedOp_full {b : List Byte} (full : b.length = 8) : seedOp b = .ceIvload (pad8 b) := if_pos full

theorem seedOp_toList (b : Block) : seedOp b.toList = .ceIvload b := by simp [seedOp]

theorem seedOp_short {b : List Byte} (short : shortLength b = true) : seedOp b = .sfFault (.shortFirstRead b) := by
  have high := shortLength_iff.1 short
  rw [seedOp, if_neg (by omega)]

/-! ### Format S -/

theorem decode_selByte (d : Dir) (seed : Bool) (n : Nat) (ops : List Byte) :
    decode (selByte d seed n :: ops) = decodeSel (selByte d seed n) (selWord d seed n) ops := by
  have tag : (selByte d seed n).extractLsb' 6 2 = 0 := BitVec.extractLsb'_append_eq_left
  have sel : (selByte d seed n).extractLsb' 0 6 = selWord d seed n := BitVec.extractLsb'_append_eq_right
  rw [decode, decodeFirst, if_pos tag, sel]

section formatS
variable {n : Nat} (fits : n < 16) {ops : List Byte} {i : Instr}
include fits

/-- `01xxxx` is `CE.IVGEN`, whatever its `LEN` bits are (R85). -/
theorem decode_ivgen_iff : decode (selByte .encrypt true n :: ops) = .ok i ↔ ops = [] ∧ i = .ceIvgen := by
  rw [decode_selByte, decodeSel, selectSel_selWord _ _ n fits]
  exact takeNone_eq_ok

/-- `11nnnn` is the IV step of the decrypt direction with a chunk of `n` bytes: one row for short chunks, one for full ones. -/
theorem decode_seed_iff : decode (selByte .decrypt true n :: ops) = .ok i ↔ n ≤ 8 ∧ ops.length = n ∧ i = seedOp ops := by
  rw [decode_selByte, decodeSel, selectSel_selWord _ _ n fits, selLen_selWord _ _ fits]
  obtain short | rfl | long : n ≤ 7 ∨ n = 8 ∨ 8 < n := by omega
  · simp only [selClass, short, if_true, takeBytes_eq_ok]
    grind [seedOp]
  · simp only [selClass, reduceIte, Nat.reduceLeDiff, takeBlock_eq_ok]
    grind [seedOp]
  · grind [selClass]

/-- `d0nnnn` is the loop with a chunk of `n` bytes: in each direction one row for an empty chunk, one for tails, one for full ones. -/
theorem decode_stream_iff (d : Dir) :
    decode (selByte d false n :: ops) = .ok i ↔ n ≤ 8 ∧ ops.length = n ∧ i = streamOp d ops := by
  rw [decode_selByte, decodeSel, selectSel_selWord _ _ n fits, selLen_selWord _ _ fits, selDir_selWord]
  obtain rfl | tail | rfl | long : n = 0 ∨ (1 ≤ n ∧ n ≤ 7) ∨ n = 8 ∨ 8 < n := by omega
  · cases d <;> grind [selClass, streamOp, fullOp, tailOp, takeNone_eq_ok]
  · cases d <;> grind [selClass, streamOp, fullOp, tailOp, takeBytes_eq_ok]
  · cases d <;> grind [selClass, streamOp, fullOp, tailOp, takeBlock_eq_ok]
  · cases d <;> grind [selClass]

end formatS

/-! ### The other spaces -/

theorem decode_rsWord (rs : BitVec 5) (ops : List Byte) :
    decode ((0b010#3 ++ rs) :: ops) = takeNone (0b010#3 ++ rs) ops (decodeRs rs) := by
  have not_sel : (0b010#3 ++ rs).extractLsb' 6 2 ≠ 0 := by
    rw [BitVec.extractLsb'_append_eq_of_le (by decide)]
    decide
  have tag : (0b010#3 ++ rs).extractLsb' 5 3 = 0b010 := BitVec.extractLsb'_append_eq_left
  have word : (0b010#3 ++ rs).extractLsb' 0 5 = rs := BitVec.extractLsb'_append_eq_right
  rw [decode, decodeFirst, if_neg not_sel, if_pos tag, word]

/-- The round of the direction `d` with index `r`. -/
def roundOp : Dir → RoundIndex → Instr
  | .encrypt, r => .frE r
  | .decrypt, r => .frD r

theorem decodeRs_rsWord (d : Dir) (r : RoundIndex) : decodeRs (rsWord d r) = roundOp d r := by
  have dir : (rsWord d r).extractLsb' 4 1 = d.code := BitVec.extractLsb'_append_eq_left
  have index : (rsWord d r).extractLsb' 0 4 = r := BitVec.extractLsb'_append_eq_right
  rw [decodeRs, dir, index]
  cases d <;> rfl

theorem exists_rsWord (rs : BitVec 5) : ∃ d r, rs = rsWord d r :=
  ⟨dirOfCode (rs.extractLsb' 4 1), rs.extractLsb' 0 4, by revert rs; decide⟩

theorem encode_roundOp (d : Dir) (r : RoundIndex) : encode (roundOp d r) = [0b010#3 ++ rsWord d r] := by cases d <;> rfl

theorem decode_ksView (r : RoundIndex) : decode (encode (.ksView r)) = .ok (.ksView r) := by
  revert r
  decide

/-- None of the eight first bytes of `SF.WRITE` is tried for another operation before it. -/
theorem decode_sfWriteByte (n : BitVec 3) (ops : List Byte) :
    decode ((0b10010#5 ++ n) :: ops) = takeBytes (0b10010#5 ++ n) (n.toNat + 1) ops .sfWrite := by
  obtain rfl | rfl | rfl | rfl | rfl | rfl | rfl | rfl : n = 0 ∨ n = 1 ∨ n = 2 ∨ n = 3 ∨ n = 4 ∨ n = 5 ∨ n = 6 ∨ n = 7 := by
    revert n
    decide
  all_goals rfl

theorem toNat_ofNat_pred {m : Nat} (low : 1 ≤ m) (high : m ≤ 8) : (BitVec.ofNat 3 (m - 1)).toNat + 1 = m := by
  rw [BitVec.toNat_ofNat]
  omega

/-! ### Decoding what was encoded -/

theorem encode_streamOp (d : Dir) {b : List Byte} (h : b.length ≤ 8) : encode (streamOp d b) = selByte d false b.length :: b := by
  obtain rfl | tail | full := chunk_cases h
  · rfl
  · rw [streamOp_tail d tail]
    cases d <;> rfl
  · rw [streamOp_full d full, full]
    cases d <;> simp [fullOp, encode, toList_pad8 full]

theorem encode_seedOp (b : List Byte) : encode (seedOp b) = selByte .decrypt true b.length :: b := by
  by_cases full : b.length = 8
  · simp [seedOp, full, encode, toList_pad8 full]
  · simp [seedOp, full, encode]

theorem decode_encode_streamOp (d : Dir) {b : List Byte} (h : b.length ≤ 8) : decode (encode (streamOp d b)) = .ok (streamOp d b) := by
  rw [encode_streamOp d h, decode_stream_iff (by omega)]
  exact ⟨h, rfl, rfl⟩

theorem decode_encode_seedOp {b : List Byte} (h : b.length ≤ 8) : decode (encode (seedOp b)) = .ok (seedOp b) := by
  rw [encode_seedOp, decode_seed_iff (by omega)]
  exact ⟨h, rfl, rfl⟩

theorem decode_encode_fullOp (d : Dir) (b : Block) : decode (encode (fullOp d b)) = .ok (fullOp d b) := by
  rw [← streamOp_toList]
  exact decode_encode_streamOp d (by simp)

theorem decode_encode_tailOp (d : Dir) {b : List Byte} (tail : tailLength b = true) :
    decode (encode (tailOp d b)) = .ok (tailOp d b) := by
  rw [← streamOp_tail d tail]
  exact decode_encode_streamOp d (Nat.le_succ_of_le (tailLength_iff.1 tail).2)

theorem decode_encode_roundOp (d : Dir) (r : RoundIndex) : decode (encode (roundOp d r)) = .ok (roundOp d r) := by
  rw [encode_roundOp, decode_rsWord, decodeRs_rsWord, takeNone_eq_ok]
  exact ⟨rfl, rfl⟩

theorem decode_encode_sfWrite {v : List Byte} (wf : writeLength v = true) : decode (encode (.sfWrite v)) = .ok (.sfWrite v) := by
  obtain ⟨low, high⟩ := writeLength_iff.1 wf
  rw [encode, decode_sfWriteByte, takeBytes_eq_ok, toNat_ofNat_pred low high]
  exact ⟨rfl, rfl⟩

/-- Settles O1: the operations of a chunk are what their descriptor's `SEL` selects; a round is what its `RS` selects; and the other first
bytes name one operation each. -/
theorem decodeOfEncodeIsIdentity : Obligations.DecodeOfEncodeIsIdentity := by
  intro i wf
  cases i with
  | frE r => exact decode_encode_roundOp .encrypt r
  | frD r => exact decode_encode_roundOp .decrypt r
  | ceEncFull b => exact decode_encode_fullOp .encrypt b
  | ceDecFull b => exact decode_encode_fullOp .decrypt b
  | ceEncTail b => exact decode_encode_tailOp .encrypt wf
  | ceDecTail b => exact decode_encode_tailOp .decrypt wf
  | ceIvload b =>
    rw [← seedOp_toList]
    exact decode_encode_seedOp (by simp)
  | sfFault src =>
    cases src with
    | shortFirstRead b =>
      rw [← seedOp_short wf]
      exact decode_encode_seedOp (Nat.le_succ_of_le (shortLength_iff.1 wf))
    | raised e => cases e <;> rfl
  | sfWrite v => exact decode_encode_sfWrite wf
  | ksView r => exact decode_ksView r
  | start d => cases d <;> rfl
  | sfEnd d => exact decode_encode_streamOp d (b := []) (by decide)
  | _ => rfl

/-! ### What was decoded is a descriptor -/

/-- `bs` is the descriptor of the well-formed operation `i`. -/
structure IsDescriptor (bs : List Byte) (i : Instr) : Prop where
  wf : i.wf = true
  encoded : bs = encode i

/-- A first byte that takes no operand and is the whole descriptor of `i`. -/
theorem isDescriptor_of_takeNone {b b' : Byte} {ops : List Byte} {i j : Instr} (byte : b = b') (h : takeNone b ops i = .ok j)
    (wf : i.wf = true) (encoded : encode i = [b']) : IsDescriptor (b :: ops) j := by
  obtain ⟨rfl, rfl⟩ := takeNone_eq_ok.1 h
  exact ⟨wf, byte ▸ encoded.symm⟩

theorem wf_streamOp (d : Dir) {b : List Byte} (h : b.length ≤ 8) : (streamOp d b).wf = true := by
  obtain rfl | tail | full := chunk_cases h
  · rfl
  · rw [streamOp_tail d tail]
    cases d <;> exact tail
  · rw [streamOp_full d full]
    cases d <;> rfl

theorem wf_seedOp {b : List Byte} (h : b.length ≤ 8) : (seedOp b).wf = true := by
  by_cases full : b.length = 8
  · rw [seedOp_full full]
    rfl
  · have short : shortLength b = true := shortLength_iff.2 (by omega)
    rw [seedOp_short short]
    exact short

/-- A format S descriptor is that of its operation, or one of the sixteen of `CE.IVGEN`. -/
theorem isDescriptor_of_decode_selByte {d : Dir} {seed : Bool} {n : Nat} (fits : n < 16) {ops : List Byte} {i : Instr}
    (h : decode (selByte d seed n :: ops) = .ok i) :
    IsDescriptor (selByte d seed n :: ops) i ∨ (i = .ceIvgen ∧ ∃ m, m < 16 ∧ selByte d seed n :: ops = [selByte .encrypt true m]) := by
  cases seed with
  | false =>
    obtain ⟨small, rfl, rfl⟩ := (decode_stream_iff fits d).1 h
    exact .inl ⟨wf_streamOp d small, (encode_streamOp d small).symm⟩
  | true =>
    cases d with
    | encrypt =>
      obtain ⟨rfl, rfl⟩ := (decode_ivgen_iff fits).1 h
      exact .inr ⟨rfl, n, fits, rfl⟩
    | decrypt =>
      obtain ⟨small, rfl, rfl⟩ := (decode_seed_iff fits).1 h
      exact .inl ⟨wf_seedOp small, (encode_seedOp ops).symm⟩

theorem isDescriptor_of_decode_rsWord {rs : BitVec 5} {ops : List Byte} {i : Instr} (h : decode ((0b010#3 ++ rs) :: ops) = .ok i) :
    IsDescriptor ((0b010#3 ++ rs) :: ops) i := by
  obtain ⟨d, r, rfl⟩ := exists_rsWord rs
  rw [decode_rsWord, decodeRs_rsWord] at h
  exact isDescriptor_of_takeNone rfl h (by cases d <;> rfl) (encode_roundOp d r)

theorem isDescriptor_of_sfWrite {n : BitVec 3} {ops : List Byte} {i : Instr}
    (h : takeBytes (0b10010#5 ++ n) (n.toNat + 1) ops .sfWrite = .ok i) : IsDescriptor ((0b10010#5 ++ n) :: ops) i := by
  obtain ⟨len, rfl⟩ := takeBytes_eq_ok.1 h
  have low : n.toNat < 8 := n.isLt
  constructor
  · exact writeLength_iff.2 (by omega)
  · rw [encode, len, Nat.add_sub_cancel, BitVec.ofNat_toNat, BitVec.setWidth_eq]

/-- The high bits of a byte above the rest of it. -/
theorem eq_tag_append {t w : Nat} {b : BitVec (t + w)} {tag : BitVec t} (h : b.extractLsb' w t = tag) : b = tag ++ b.extractLsb' 0 w := by
  rw [← h, BitVec.extractLsb'_append_extractLsb']

/-- The operations invoked by name, first byte by first byte. -/
theorem isDescriptor_of_decodeNamed {b : Byte} {ops : List Byte} {i : Instr} (h : decodeNamed b ops = .ok i) :
    IsDescriptor (b :: ops) i := by
  unfold decodeNamed at h
  obtain ⟨rf, h⟩ | ⟨-, h⟩ := ite_eq_iff.1 h
  · subst rf
    split at h
    · cases h
      exact ⟨rfl, rfl⟩
    · cases h
  obtain ⟨load, h⟩ | ⟨-, h⟩ := ite_eq_iff.1 h
  · subst load
    cases h
    exact ⟨rfl, rfl⟩
  obtain ⟨check, h⟩ | ⟨-, h⟩ := ite_eq_iff.1 h
  · exact isDescriptor_of_takeNone check h rfl rfl
  obtain ⟨read, h⟩ | ⟨-, h⟩ := ite_eq_iff.1 h
  · exact isDescriptor_of_takeNone read h rfl rfl
  obtain ⟨status, h⟩ | ⟨-, h⟩ := ite_eq_iff.1 h
  · exact isDescriptor_of_takeNone status h rfl rfl
  obtain ⟨write, h⟩ | ⟨-, h⟩ := ite_eq_iff.1 h
  · have byte := eq_tag_append (t := 5) write
    generalize b.extractLsb' 0 3 = n at h byte
    subst byte
    exact isDescriptor_of_sfWrite h
  obtain ⟨view, h⟩ | ⟨-, h⟩ := ite_eq_iff.1 h
  · exact isDescriptor_of_takeNone (eq_tag_append (t := 4) view) h rfl rfl
  obtain ⟨keyLength, h⟩ | ⟨-, h⟩ := ite_eq_iff.1 h
  · exact isDescriptor_of_takeNone keyLength h rfl rfl
  obtain ⟨entropySource, h⟩ | ⟨-, h⟩ := ite_eq_iff.1 h
  · exact isDescriptor_of_takeNone entropySource h rfl rfl
  obtain ⟨io, h⟩ | ⟨-, h⟩ := ite_eq_iff.1 h
  · exact isDescriptor_of_takeNone io h rfl rfl
  cases h

/-- Everything that a list of bytes that decodes can be. -/
theorem isDescriptor_of_decode {bs : List Byte} {i : Instr} (h : decode bs = .ok i) :
    IsDescriptor bs i ∨ (i = .ceIvgen ∧ ∃ n, n < 16 ∧ bs = [selByte .encrypt true n]) := by
  cases bs with
  | nil => cases h
  | cons b ops =>
    have first := h
    rw [decode, decodeFirst] at first
    obtain ⟨sel, -⟩ | ⟨-, first⟩ := ite_eq_iff.1 first
    · have byte := eq_tag_append (t := 2) sel
      obtain ⟨d, seed, n, fits, word⟩ := exists_selWord (b.extractLsb' 0 6)
      rw [word] at byte
      subst byte
      exact isDescriptor_of_decode_selByte fits h
    left
    obtain ⟨rs, -⟩ | ⟨-, first⟩ := ite_eq_iff.1 first
    · rw [eq_tag_append (t := 3) rs] at h ⊢
      exact isDescriptor_of_decode_rsWord h
    obtain ⟨enc, first⟩ | ⟨-, first⟩ := ite_eq_iff.1 first
    · exact isDescriptor_of_takeNone enc first rfl rfl
    obtain ⟨dec, first⟩ | ⟨-, first⟩ := ite_eq_iff.1 first
    · exact isDescriptor_of_takeNone dec first rfl rfl
    obtain ⟨stream, first⟩ | ⟨-, first⟩ := ite_eq_iff.1 first
    · exact isDescriptor_of_takeNone stream first rfl rfl
    obtain ⟨seed, first⟩ | ⟨-, first⟩ := ite_eq_iff.1 first
    · exact isDescriptor_of_takeNone seed first rfl rfl
    obtain ⟨startE, first⟩ | ⟨-, first⟩ := ite_eq_iff.1 first
    · exact isDescriptor_of_takeNone startE first rfl rfl
    obtain ⟨startD, first⟩ | ⟨-, first⟩ := ite_eq_iff.1 first
    · exact isDescriptor_of_takeNone startD first rfl rfl
    exact isDescriptor_of_decodeNamed first

/-- Settles O2: what decodes is a descriptor of the encoder, or `01xxxx`, whose `LEN` bits the decoder does not look at. -/
theorem decodedIsWellFormedAndCanonical : Obligations.DecodedIsWellFormedAndCanonical := by
  refine ⟨fun bs i h => ?_, fun n fits => (decode_ivgen_iff fits).2 ⟨rfl, rfl⟩⟩
  obtain ⟨wf, encoded⟩ | ⟨rfl, sixteen⟩ := isDescriptor_of_decode h
  · refine ⟨wf, fun _ => encoded, ?_⟩
    rintro rfl
    exact ⟨0, by decide, encoded⟩
  · exact ⟨rfl, fun other => absurd rfl other, fun _ => sixteen⟩

/-! ### The map of `SEL` -/

theorem selSeed_selWord (d : Dir) (seed : Bool) (n : Nat) : (selWord d seed n).extractLsb' 4 2 = d.code ++ BitVec.ofBool seed :=
  BitVec.extractLsb'_append_eq_left

/-- Above eight bytes only `01xxxx` selects anything. -/
theorem selClass_long (d : Dir) (seed : Bool) {n : Nat} (long : 8 < n) : selClass d seed n = none ∨ (d = .encrypt ∧ seed = true) := by
  cases d <;> cases seed <;> grind [selClass]

theorem selClass_eq_ivgen (d : Dir) (seed : Bool) (n : Nat) : selClass d seed n = some .ivgen ↔ d = .encrypt ∧ seed = true := by
  cases d <;> cases seed <;> grind [selClass]

/-- Settles O3: the eight rows are tried on each `SEL`; the other two clauses are read off its fields. -/
theorem selectorMapIsUnambiguous : Obligations.SelectorMapIsUnambiguous := by
  intro sel
  have one_row : ∀ sel : BitVec 6, selLen sel ≤ 8 → (selTable.filter (·.hits sel)).length = 1 := by decide
  refine ⟨one_row sel, ?_⟩
  obtain ⟨d, seed, n, fits, rfl⟩ := exists_selWord sel
  rw [selectSel_selWord d seed n fits, selLen_selWord d seed fits, selSeed_selWord, selClass_eq_ivgen]
  exact ⟨selClass_long d seed, by cases d <;> cases seed <;> decide⟩

/-- Settles O4: the words are decoded. -/
theorem specWordsDecode : Obligations.SpecWordsDecode := ⟨rfl, rfl, rfl, rfl, rfl, rfl, rfl, rfl⟩

/-! ### What a selected descriptor runs -/

theorem step_select {s : State} {bs : List Byte} {q : List Slot} {i : Instr} (head : s.sched = .select bs :: q) (h : decode bs = .ok i) :
    step s = exec i { s with sched := q } := by
  simp [step_eq, nextOp, head, selectNext, h]

theorem decodeTableWord_eq_some {nbits w : Nat} {i : Instr} : decodeTableWord nbits w = some i ↔ decode (tableBytes nbits w) = .ok i := by
  unfold decodeTableWord
  split <;> simp_all

/-- Settles O5: the head slot is the descriptor, and taking it off the schedule gives the state before the selection. -/
theorem stepRunsDecodedOperation : Obligations.StepRunsDecodedOperation :=
  ⟨fun _ _ _ _ head h => step_select head h, fun s nbits w _ h =>
    step_select (s := s.withFetchWord nbits w) rfl (decodeTableWord_eq_some.1 h)⟩

/-! ### The operation of a chunk, performed -/

/-- What becomes of a write does not depend on how many moves are left, if there is one. -/
theorem carryOn_askWrite_succ (n : Nat) (v : List Byte) (k : After) (s : State) :
    carryOn (n + 1) (askWrite v k s) = carryOn 1 (askWrite v k s) := by
  obtain ⟨a, q, -, e⟩ | ⟨-, e⟩ := askWrite_cases v k s
  · rw [e, carryOn_move n _ (.written v k a) rfl rfl, carryOn_move 0 _ (.written v k a) rfl rfl]
    exact carryOn_ended n _ (afterWrite_pending ..)
  · rw [e, carryOn_waiting _ _ (.write v k) rfl rfl, carryOn_waiting _ _ (.write v k) rfl rfl]

/-- After a computation at most two moves are left: the write and what follows it. -/
theorem Computes.carryOn_two {s t : State} (h : Computes s t) : carryOn 2 t = complete t := by
  obtain ended | ⟨v, k, due, -⟩ := h.ended_or_due
  · rw [complete, carryOn_ended 2 t ended, carryOn_ended 3 t ended]
  · rw [complete, carryOn_move 1 t _ due rfl, carryOn_move 2 t _ due rfl]
    exact (carryOn_askWrite_succ 1 v k t).symm

/-- An operation whose read is answered goes on with its chunk as an operation of its own. -/
theorem complete_askRead {s : State} (k : Reader) {c : Chunk} {q : List (Option InAnswer)} (answered : s.inQ = some (.data c) :: q) :
    complete (askRead k s) = complete (useChunk k c { s with inQ := q, pending := none, log := .read (.data c) :: s.log }) := by
  rw [askRead_of_answer k answered, complete, carryOn_move 2 _ (.readDone k (.data c)) rfl rfl]
  exact Computes.carryOn_two (useChunk_computes c rfl k)

section chunkOp
variable (c : Chunk) {s : State}

theorem exec_fullOp (full : c.len = 8) : exec (fullOp s.dir (pad8 c.bytes)) s = .next (complete (streamChunk c s)) := by
  cases dir : s.dir with
  | encrypt =>
    rw [streamChunk_of_encrypt c dir, if_pos full]
    rfl
  | decrypt =>
    rw [streamChunk_of_decrypt c dir, if_pos full]
    rfl

theorem exec_tailOp (tail : tailLength c.bytes = true) : exec (tailOp s.dir c.bytes) s = .next (complete (streamChunk c s)) := by
  obtain ⟨low, high⟩ : 1 ≤ c.len ∧ c.len ≤ 7 := tailLength_iff.1 tail
  have partial_chunk : c.len ≠ Config.blockSize := Nat.ne_of_lt (Nat.lt_succ_of_le high)
  cases dir : s.dir with
  | encrypt =>
    rw [streamChunk_of_encrypt c dir, if_neg partial_chunk, if_pos low]
    exact if_pos tail
  | decrypt =>
    rw [streamChunk_of_decrypt c dir, if_neg partial_chunk, if_pos low]
    exact if_pos tail

theorem exec_sfEnd_of_empty (free : s.pending = none) (empty : c.bytes = []) :
    exec (.sfEnd s.dir) s = .next (complete (streamChunk c s)) := by
  have ends : streamChunk c s = endOp s := by simp [streamChunk, Chunk.len, empty]
  rw [ends]
  exact congrArg Host.Outcome.next (carryOn_ended 3 (endOp s) free).symm

/-- The operation that the loop selects does what the loop does with the chunk. -/
theorem exec_streamOp (free : s.pending = none) : exec (streamOp s.dir c.bytes) s = .next (complete (streamChunk c s)) := by
  obtain empty | tail | full := chunk_cases c.le_blockSize
  · rw [empty, streamOp_nil]
    exact exec_sfEnd_of_empty c free empty
  · rw [streamOp_tail _ tail]
    exact exec_tailOp c tail
  · rw [streamOp_full _ full]
    exact exec_fullOp c full

/-- The operation that the IV step selects does what the IV step does with the chunk. -/
theorem exec_seedOp (free : s.pending = none) : exec (seedOp c.bytes) s = .next (complete (seedChunk c s)) := by
  by_cases full : c.bytes.length = 8
  · have loads : seedChunk c s = ceIvload (pad8 c.bytes) s := if_pos full
    rw [seedOp_full full, loads]
    exact congrArg Host.Outcome.next (carryOn_ended 3 (ceIvload _ s) free).symm
  · have short : shortLength c.bytes = true := shortLength_iff.2 (Nat.le_of_lt_succ (lt_of_le_of_ne c.le_blockSize full))
    have aborts : seedChunk c s = raise .io s := if_neg full
    rw [seedOp_short short, aborts, complete, carryOn_ended 3 _ (raise_pending ..)]
    exact if_pos short

end chunkOp

/-- Settles O7: once its read is answered `SF.STEP` is the computation on the chunk, and so is the operation that `SEL` selects. -/
theorem sfStepPerformsTheSelectedOperation : Obligations.SfStepPerformsTheSelectedOperation := by
  intro s c q answered
  have fits : c.len < 16 := Nat.lt_of_le_of_lt c.le_blockSize (by decide)
  constructor
  · have decoded := (decode_stream_iff fits s.dir).2 ⟨c.le_blockSize, rfl, rfl⟩
    have stepped : exec .sfStepStream s = _ := congrArg Host.Outcome.next (complete_askRead .stepStream answered)
    exact ⟨_, _, decoded, stepped, exec_streamOp c (s := { s with inQ := q, pending := none, log := .read (.data c) :: s.log }) rfl⟩
  · intro decrypts
    have decoded := (decode_seed_iff fits).2 ⟨c.le_blockSize, rfl, rfl⟩
    have stepped : exec .sfStepSeed s = .next (complete (askRead .stepSeed s)) := by
      simp [exec, execSfStepSeed, seedFirst, decrypts]
    exact ⟨_, _, decoded, stepped.trans (congrArg _ (complete_askRead .stepSeed answered)), exec_seedOp c rfl⟩

end Sys2Proof.Machine

/-! # The block transform family (spec/40_block_transform.md): rounds, their sequences, the closed form of the transforms, lanes -/

namespace Sys2Proof.Machine

/-! ### The meaning of each operation -/

@[simp] theorem exec_frE (r : RoundIndex) (s : State) : exec (.frE r) s = .next (roundE r s) := rfl
@[simp] theorem exec_frD (r : RoundIndex) (s : State) : exec (.frD r) s = .next (roundD r s) := rfl
@[simp] theorem exec_btEnc (s : State) : exec .btEnc s = .next (blockEnc s) := rfl
@[simp] theorem exec_btDec (s : State) : exec .btDec s = .next (blockDec s) := rfl

/-- Settles O10: `RF` returns its second operand, whatever the first is. -/
theorem rfReturnsTheKeyByte : Obligations.RfReturnsTheKeyByte := fun _ _ _ => rfl

/-! ### A round on the block -/

/-- The block after the encrypt round with index `r`. -/
def encBlock (key : Key) (b : Block) (r : RoundIndex) : Block :=
  mixE b key[keyIndex r 0] key[keyIndex r 1] key[keyIndex r 2] key[keyIndex r 3]

/-- The block after the decrypt round with index `r`. -/
def decBlock (key : Key) (b : Block) (r : RoundIndex) : Block :=
  mixD b key[keyIndex r 0] key[keyIndex r 1] key[keyIndex r 2] key[keyIndex r 3]

section round
variable (r : RoundIndex) (s : State)

theorem roundE_blk : (roundE r s).blk = encBlock s.key s.blk r := by rw [roundE_eq]; rfl
theorem roundD_blk : (roundD r s).blk = decBlock s.key s.blk r := by rw [roundD_eq]; rfl

@[simp] theorem roundE_key : (roundE r s).key = s.key := rfl
@[simp] theorem roundD_key : (roundD r s).key = s.key := rfl

/-- A round changes nothing but the block and the hidden round state. -/
theorem roundE_frame : sameButHidden (roundE r s) { s with blk := (roundE r s).blk } := rfl
theorem roundD_frame : sameButHidden (roundD r s) { s with blk := (roundD r s).blk } := rfl

end round

section byte
variable (key : Key) (b : Block) (r : RoundIndex) (i : Nat) (hi : i < 4)

theorem encBlock_left : (encBlock key b r)[i] = b[4 + i] := by
  match i, hi with
  | 0, _ | 1, _ | 2, _ | 3, _ => rfl

theorem encBlock_right : (encBlock key b r)[4 + i] = b[i] ^^^ key[keyIndex r ⟨i, hi⟩] := by
  match i, hi with
  | 0, _ | 1, _ | 2, _ | 3, _ => rfl

theorem decBlock_left : (decBlock key b r)[i] = b[4 + i] ^^^ key[keyIndex r ⟨i, hi⟩] := by
  match i, hi with
  | 0, _ | 1, _ | 2, _ | 3, _ => rfl

theorem decBlock_right : (decBlock key b r)[4 + i] = b[i] := by
  match i, hi with
  | 0, _ | 1, _ | 2, _ | 3, _ => rfl

end byte

/-- Two blocks are equal when they agree in both bytes of every lane. -/
theorem block_ext_lanes {a b : Block} (h : ∀ (i : Nat) (_ : i < 4), a[i] = b[i] ∧ a[4 + i] = b[4 + i]) : a = b := by
  ext1 j hj
  by_cases left : j < 4
  · exact (h j left).1
  · have right := (h (j - 4) (by omega)).2
    simpa only [Nat.add_sub_cancel' (Nat.le_of_not_lt left)] using right

/-- Settles O11: the encrypt round read byte by byte, with its frame. -/
theorem frESwapsHalvesAndMixesTheRoundKey : Obligations.FrESwapsHalvesAndMixesTheRoundKey := by
  intro r s
  refine ⟨roundE r s, exec_frE r s, roundE_frame r s, rfl, fun i hi => ?_⟩
  rw [roundE_blk]
  exact ⟨encBlock_left s.key s.blk r i hi, encBlock_right s.key s.blk r i hi⟩

/-- Settles O12: the decrypt round read byte by byte, with its frame. -/
theorem frDSwapsHalvesAndUnmixesTheRoundKey : Obligations.FrDSwapsHalvesAndUnmixesTheRoundKey := by
  intro r s
  refine ⟨roundD r s, exec_frD r s, roundD_frame r s, rfl, rfl, fun i hi => ?_⟩
  rw [roundD_blk]
  exact ⟨decBlock_left s.key s.blk r i hi, decBlock_right s.key s.blk r i hi⟩

/-- The decrypt round takes the round key off where the encrypt round put it on. -/
theorem decBlock_encBlock (key : Key) (b : Block) (r : RoundIndex) : decBlock key (encBlock key b r) r = b :=
  block_ext_lanes fun i hi => by simp [decBlock_left, decBlock_right, encBlock_left, encBlock_right, hi]

/-- Two operations that change nothing but the block and hidden state give the state back when they give the block back. -/
theorem sameButHidden_of_blk_back {s t u : State} (first : sameButHidden t { s with blk := t.blk })
    (second : sameButHidden u { t with blk := u.blk }) (back : u.blk = s.blk) : sameButHidden u s := by
  rw [sameButHidden_iff] at *
  simp_all

/-- Settles O13: the block comes back, and neither round touches anything else but hidden state. -/
theorem frDUndoesFrE : Obligations.FrDUndoesFrE := by
  intro r s
  have back : (roundD r (roundE r s)).blk = s.blk := by rw [roundD_blk, roundE_key, roundE_blk, decBlock_encBlock]
  exact ⟨_, _, exec_frE r s, exec_frD r _, sameButHidden_of_blk_back (roundE_frame r s) (roundD_frame r _) back⟩

/-! ### The round sequences -/

/-- A fold passes through the states of its initial segments, and each is one application of `f` to the one before. -/
theorem exists_states_of_foldl {α β : Type} (f : β → α → β) (b : β) (l : List α) :
    ∃ σ : Nat → β, σ 0 = b ∧ l.foldl f b = σ l.length ∧ ∀ (n : Nat) (h : n < l.length), f (σ n) l[n] = σ (n + 1) := by
  refine ⟨fun n => (l.take n).foldl f b, rfl, by simp, fun n h => ?_⟩
  change f ((l.take n).foldl f b) l[n] = (l.take (n + 1)).foldl f b
  rw [List.take_succ_eq_append_getElem h, List.foldl_append]
  rfl

/-- The selectors of the encrypt rounds in their order (R90, R112). -/
theorem decodeRs_encRounds : ∀ (n : Nat) (h : n < 16),
    encRounds[n] = BitVec.ofNat 4 n ∧ decodeRs (BitVec.ofNat 5 n) = .frE (BitVec.ofNat 4 n) := by decide

/-- The selectors of the decrypt rounds in their order (R90, R114). -/
theorem decodeRs_decRounds : ∀ (n : Nat) (h : n < 16),
    decRounds[n] = BitVec.ofNat 4 (15 - n) ∧ decodeRs (BitVec.ofNat 5 (31 - n)) = .frD (BitVec.ofNat 4 (15 - n)) := by decide

/-- Settles O14: each transform is a fold of rounds, whose initial segments give the intermediate states. -/
theorem blockTransformsAreTheirRoundSequences : Obligations.BlockTransformsAreTheirRoundSequences := by
  intro s
  constructor
  · obtain ⟨σ, first, last, next⟩ := exists_states_of_foldl (fun s r => roundE r { s with round := r }) s encRounds
    refine ⟨σ, first, congrArg Host.Outcome.next last, fun n hn => ?_⟩
    obtain ⟨index, selected⟩ := decodeRs_encRounds n hn
    rw [selected, exec_frE, ← next n hn, index]
  · obtain ⟨σ, first, last, next⟩ := exists_states_of_foldl (fun s r => roundD r { s with round := r }) s decRounds
    refine ⟨σ, first, congrArg Host.Outcome.next last, fun n hn => ?_⟩
    obtain ⟨index, selected⟩ := decodeRs_decRounds n hn
    rw [selected, exec_frD, ← next n hn, index]

/-! ### The closed form of the transforms (R117, R118) -/

/-- The block after a sequence of steps that keep the key and act on the block by the key alone. -/
theorem foldl_blk {α : Type} (step : State → α → State) (onBlock : Key → Block → α → Block)
    (keeps_key : ∀ s a, (step s a).key = s.key) (blk : ∀ s a, (step s a).blk = onBlock s.key s.blk a) (l : List α) (s : State) :
    (l.foldl step s).blk = l.foldl (onBlock s.key) s.blk := by
  induction l generalizing s with
  | nil => rfl
  | cons a l ih => rw [List.foldl_cons, ih, keeps_key, blk, List.foldl_cons]

theorem blockEnc_blk_eq_foldl (s : State) : (blockEnc s).blk = encRounds.foldl (encBlock s.key) s.blk :=
  foldl_blk (fun s r => roundE r { s with round := r }) encBlock (fun _ _ => rfl) (fun s r => roundE_blk r { s with round := r }) encRounds s

theorem blockDec_blk_eq_foldl (s : State) : (blockDec s).blk = decRounds.foldl (decBlock s.key) s.blk :=
  foldl_blk (fun s r => roundD r { s with round := r }) decBlock (fun _ _ => rfl) (fun s r => roundD_blk r { s with round := r }) decRounds s

/-- The keys of two rounds side by side, as a block. -/
def roundKeys (key : Key) (r r' : RoundIndex) : Block := (roundKey key r ++ roundKey key r' : Vector Byte (4 + 4))

section roundKeys
variable (key : Key) (r r' : RoundIndex) (i : Nat) (hi : i < 4)

theorem roundKeys_left : (roundKeys key r r')[i] = key[keyIndex r ⟨i, hi⟩] :=
  (Vector.getElem_append_left hi).trans (by simp [roundKey])

theorem roundKeys_right : (roundKeys key r r')[4 + i] = key[keyIndex r' ⟨i, hi⟩] :=
  (Vector.getElem_append_right (by omega) (by omega)).trans (by simp [roundKey])

end roundKeys

/-- Two rounds bring each half back to its place, mixed with the key of one of them. -/
theorem encBlock_encBlock (key : Key) (b : Block) (r r' : RoundIndex) :
    encBlock key (encBlock key b r) r' = xorBlock b (roundKeys key r r') :=
  block_ext_lanes fun i hi => by simp [encBlock_left, encBlock_right, roundKeys_left, roundKeys_right, hi]

theorem keyMask_get (key : Key) {j : Nat} (hj : j < 8) :
    (keyMask key)[j] =
      key[8 * 0 + j] ^^^ key[8 * 1 + j] ^^^ key[8 * 2 + j] ^^^ key[8 * 3 + j] ^^^ key[8 * 4 + j] ^^^ key[8 * 5 + j] ^^^ key[8 * 6 + j] ^^^
        key[8 * 7 + j] := by
  simp [keyMask]

/-- The mask is the exclusive or of the round keys, taken in pairs. -/
theorem keyMask_eq (key : Key) :
    keyMask key =
      xorBlock (roundKeys key 0 1) (xorBlock (roundKeys key 2 3) (xorBlock (roundKeys key 4 5) (xorBlock (roundKeys key 6 7)
        (xorBlock (roundKeys key 8 9) (xorBlock (roundKeys key 10 11) (xorBlock (roundKeys key 12 13) (roundKeys key 14 15))))))) := by
  refine block_ext_lanes fun i hi => ?_
  simp (disch := omega) [keyMask_get, roundKeys_left, roundKeys_right, keyIndex, BitVec.xor_assoc, ← Nat.add_assoc]

/-- R117: the eight pairs of encrypt rounds. -/
@[simp] theorem blockEnc_blk (s : State) : (blockEnc s).blk = xorBlock s.blk (keyMask s.key) := by
  rw [blockEnc_blk_eq_foldl, keyMask_eq]
  simp only [encRounds, List.foldl, encBlock_encBlock, xorBlock_assoc]

/-- The decrypt rounds in the reverse order undo a sequence of encrypt rounds. -/
theorem foldl_decBlock_reverse (key : Key) (rs : List RoundIndex) (b : Block) :
    rs.reverse.foldl (decBlock key) (rs.foldl (encBlock key) b) = b := by
  induction rs generalizing b with
  | nil => rfl
  | cons r rs ih => simp only [List.reverse_cons, List.foldl_append, List.foldl_cons, List.foldl_nil, ih, decBlock_encBlock]

/-- R115 on the block. -/
theorem blockDec_blockEnc_blk (s : State) : (blockDec (blockEnc s)).blk = s.blk := by
  rw [blockDec_blk_eq_foldl, blockEnc_key, blockEnc_blk_eq_foldl]
  exact foldl_decBlock_reverse s.key encRounds s.blk

/-- R118: the inverse of an exclusive or is the same exclusive or. -/
@[simp] theorem blockDec_blk (s : State) : (blockDec s).blk = xorBlock s.blk (keyMask s.key) := by
  obtain ⟨m, key, blk, masked⟩ :
      ∃ m : State, (blockEnc m).key = s.key ∧ (blockEnc m).blk = s.blk ∧ m.blk = xorBlock s.blk (keyMask s.key) :=
    ⟨{ s with blk := xorBlock s.blk (keyMask s.key) }, by simp, by simp, rfl⟩
  rw [← blockDec_blk_congr key blk, blockDec_blockEnc_blk, masked]

theorem blockEnc_closed (s : State) : sameButHidden (blockEnc s) { s with blk := xorBlock s.blk (keyMask s.key) } := by
  simp [sameButHidden_iff]

theorem blockDec_closed (s : State) : sameButHidden (blockDec s) { s with blk := xorBlock s.blk (keyMask s.key) } := by
  simp [sameButHidden_iff]

/-- Settles O15: two rounds mix each half in place, and the eight pairs of round keys make up the mask. -/
theorem btEncIsXorWithTheMask : Obligations.BtEncIsXorWithTheMask := fun s => ⟨blockEnc s, exec_btEnc s, blockEnc_closed s⟩

/-- Settles O16: both transforms are the exclusive or with the mask, which cancels itself. -/
theorem btDecIsTheSameFunction : Obligations.BtDecIsTheSameFunction := by
  intro s
  refine ⟨blockDec s, exec_btDec s, blockDec_closed s, ⟨blockEnc s, exec_btEnc s, ?_⟩, ⟨blockDec (blockDec s), exec_btDec _, ?_⟩,
    ⟨blockEnc s, blockEnc (blockEnc s), exec_btEnc s, exec_btEnc _, ?_⟩⟩
  · rw [blockEnc_blk, blockDec_blk]
  · simp
  · simp

/-- Settles O17: the mask cancels itself, and the rest of the state stays through both transforms. -/
theorem blockRoundTrip : Obligations.BlockRoundTrip := by
  intro s
  refine ⟨⟨_, _, exec_btEnc s, exec_btDec (blockEnc s), ?_⟩, ⟨_, _, exec_btDec s, exec_btEnc (blockDec s), ?_⟩⟩
  · simp [sameButHidden_iff]
  · simp [sameButHidden_iff]

/-! ### Lanes (R116) -/

/-- A write of both bytes of lane `i`. -/
def writeLane (b : Block) (i : Fin 4) (bytes : Byte × Byte) : Block := setRight (setLeft b i bytes.1) i bytes.2

/-- A lane step: the bytes of lane `i` become `g i left[i] right[i]`. -/
def stepLane (g : Fin 4 → Byte → Byte → Byte × Byte) (b : Block) (i : Fin 4) : Block :=
  writeLane b i (g i (leftByte b i) (rightByte b i))

/-- What an encrypt round makes of the two bytes of a lane (R111). -/
def mixLaneE (key : Key) (r : RoundIndex) (i : Fin 4) (left right : Byte) : Byte × Byte := (right, left ^^^ key[keyIndex r i])

/-- What a decrypt round makes of the two bytes of a lane (R113). -/
def mixLaneD (key : Key) (r : RoundIndex) (i : Fin 4) (left right : Byte) : Byte × Byte := (right ^^^ key[keyIndex r i], left)

theorem laneE_blk (r : RoundIndex) (i : Fin 4) (s : State) : (laneE r i s).blk = stepLane (mixLaneE s.key r) s.blk i := by
  simp only [laneE, rf, stepLane, writeLane, mixLaneE, setLeft, setRight]
  exact Vector.set_comm _ _ (by omega)

theorem laneD_blk (r : RoundIndex) (i : Fin 4) (s : State) : (laneD r i s).blk = stepLane (mixLaneD s.key r) s.blk i := rfl

theorem foldl_laneE_blk (r : RoundIndex) (order : List (Fin 4)) (s : State) :
    (order.foldl (fun u i => laneE r i u) s).blk = order.foldl (stepLane (mixLaneE s.key r)) s.blk :=
  foldl_blk (fun u i => laneE r i u) (fun key => stepLane (mixLaneE key r)) (fun _ _ => rfl) (fun u i => laneE_blk r i u) order s

theorem foldl_laneD_blk (r : RoundIndex) (order : List (Fin 4)) (s : State) :
    (order.foldl (fun u i => laneD r i u) s).blk = order.foldl (stepLane (mixLaneD s.key r)) s.blk :=
  foldl_blk (fun u i => laneD r i u) (fun key => stepLane (mixLaneD key r)) (fun _ _ => rfl) (fun u i => laneD_blk r i u) order s

section otherLane
variable (b : Block) {i j : Fin 4} (other : i ≠ j) (bytes bytes' : Byte × Byte)
include other

theorem leftByte_writeLane_of_ne : leftByte (writeLane b i bytes) j = leftByte b j := by
  have left : i.val ≠ j.val := Fin.val_ne_of_ne other
  have right : 4 + i.val ≠ j.val := by omega
  simp [leftByte, writeLane, setLeft, setRight, left, right]

theorem rightByte_writeLane_of_ne : rightByte (writeLane b i bytes) j = rightByte b j := by
  have left : i.val ≠ 4 + j.val := by omega
  have right : i.val ≠ j.val := Fin.val_ne_of_ne other
  simp [rightByte, writeLane, setLeft, setRight, left, right]

theorem writeLane_comm : writeLane (writeLane b i bytes) j bytes' = writeLane (writeLane b j bytes') i bytes := by
  have apart : i.val ≠ j.val := Fin.val_ne_of_ne other
  ext1 l hl
  simp only [writeLane, setLeft, setRight, Vector.getElem_set]
  grind

end otherLane

section stepLane
variable (g : Fin 4 → Byte → Byte → Byte × Byte) (b : Block)

/-- Lane steps commute: each reads and writes its own two bytes. -/
theorem stepLane_comm (i j : Fin 4) : stepLane g (stepLane g b i) j = stepLane g (stepLane g b j) i := by
  obtain rfl | other := eq_or_ne i j
  · rfl
  · simp only [stepLane, leftByte_writeLane_of_ne _ other, rightByte_writeLane_of_ne _ other, leftByte_writeLane_of_ne _ other.symm,
      rightByte_writeLane_of_ne _ other.symm]
    exact writeLane_comm b other _ _

theorem foldl_stepLane_perm {order order' : List (Fin 4)} (perm : order.Perm order') :
    order.foldl (stepLane g) b = order'.foldl (stepLane g) b :=
  perm.foldl_eq' (fun i _ j _ b => stepLane_comm g b i j) b

end stepLane

/-- A byte of the mask depends on the key bytes of its column. -/
theorem keyMask_get_congr {key key' : Key} {j : Nat} (hj : j < 8)
    (column : ∀ (m : Nat) (_ : m < 8), key[8 * m + j] = key'[8 * m + j]) : (keyMask key)[j] = (keyMask key')[j] := by
  simp only [keyMask_get _ hj, column, Nat.reduceLT]

/-- The mask of a lane depends on the key bytes of that lane. -/
theorem keyMask_lane_congr {key key' : Key} {i : Nat} (hi : i < 4)
    (lane : ∀ (r : Nat) (_ : r < 16), key[4 * r + i] = key'[4 * r + i]) :
    (keyMask key)[i] = (keyMask key')[i] ∧ (keyMask key)[4 + i] = (keyMask key')[4 + i] := by
  constructor
  · refine keyMask_get_congr (by omega) fun m hm => ?_
    have even : 8 * m + i = 4 * (2 * m) + i := by omega
    simpa only [even] using lane (2 * m) (by omega)
  · refine keyMask_get_congr (by omega) fun m hm => ?_
    have odd : 8 * m + (4 + i) = 4 * (2 * m + 1) + i := by omega
    simpa only [odd] using lane (2 * m + 1) (by omega)

theorem exec_transform {op : Instr} (transform : op = .btEnc ∨ op = .btDec) (s : State) :
    ∃ t, exec op s = .next t ∧ t.blk = xorBlock s.blk (keyMask s.key) := by
  obtain rfl | rfl := transform
  · exact ⟨_, exec_btEnc s, blockEnc_blk s⟩
  · exact ⟨_, exec_btDec s, blockDec_blk s⟩

/-- Settles O18: lane steps commute, and both transforms are the exclusive or with the mask, byte by byte. -/
theorem lanesAreIndependent : Obligations.LanesAreIndependent := by
  refine ⟨fun r s t order perm => ⟨?_, ?_⟩, fun s s' i hi left right lane op transform => ?_⟩
  · rintro ⟨⟩
    rw [roundE, foldl_laneE_blk, foldl_laneE_blk]
    exact foldl_stepLane_perm _ _ perm
  · rintro ⟨⟩
    rw [roundD, foldl_laneD_blk, foldl_laneD_blk]
    exact foldl_stepLane_perm _ _ perm
  · obtain ⟨t, next, blk⟩ := exec_transform transform s
    obtain ⟨t', next', blk'⟩ := exec_transform transform s'
    obtain ⟨mask_left, mask_right⟩ := keyMask_lane_congr hi lane
    refine ⟨t, t', next, next', ?_, ?_⟩
    · simp only [blk, blk', xorBlock_get, left, mask_left]
    · simp only [blk, blk', xorBlock_get, right, mask_right]

end Sys2Proof.Machine

/-! # The key schedule family (spec/41_key_schedule.md): loading and checking the key, and the round keys -/

namespace Sys2Proof.Machine

/-! ### Loading the key (R130, R134) -/

section ksLoad
variable (key : List Byte) {s : State}

/-- A busy core refuses `KS.LOAD`. -/
theorem exec_ksLoad_of_busy (busy : s.phase.busy = true) : exec (.ksLoad key) s = .next s := by simp [exec, execKsLoad, busy]

/-- A core that is not busy takes the key. -/
theorem exec_ksLoad_of_idle (idle : s.phase.busy = false) :
    exec (.ksLoad key) s = .next { s with keylen := key.length, key := storeKey s.key key } := by
  simp [exec, execKsLoad, idle]

end ksLoad

section storeKey
variable (old : Key) {key : List Byte} {j : Nat} (hj : j < 64)

theorem storeKey_get_of_lt (below : j < key.length) : (storeKey old key)[j] = key[j] := by simp [storeKey_get, below]

theorem storeKey_get_of_le (above : key.length ≤ j) : (storeKey old key)[j] = old[j] := by simp [storeKey_get, above]

end storeKey

/-- Settles O19: the new key store is `storeKey` of the old one, which is read below and above the length of the key. -/
theorem ksLoadStoresTheKey : Obligations.KsLoadStoresTheKey := fun key s idle =>
  ⟨storeKey s.key key, exec_ksLoad_of_idle key idle, fun _ hj => ⟨storeKey_get_of_lt s.key hj, storeKey_get_of_le s.key hj⟩⟩

@[simp] theorem exec_start (d : Dir) (s : State) : exec (.start d) s = .next (startOp d s) := rfl

/-- Settles O20: both host commands look at `PHASE` first. -/
theorem hostCommandsAreRefusedWhileBusy : Obligations.HostCommandsAreRefusedWhileBusy := fun s busy =>
  ⟨fun key => exec_ksLoad_of_busy key busy, fun d => by rw [exec_start, startOp_of_busy d busy]⟩

/-! ### Checking the key (R131) -/

section keyCheck
variable (ok : State → State) {s : State}

theorem keyCheckThen_of_key (checked : s.keylen = 64) : keyCheckThen ok s = ok s := if_pos checked

theorem keyCheckThen_of_bad_key (unchecked : s.keylen ≠ 64) : keyCheckThen ok s = raise .keyLength s := if_neg unchecked

end keyCheck

@[simp] theorem exec_ksCheck (s : State) : exec .ksCheck s = .next (keyCheckThen id s) := rfl

/-- Settles O22: a key of 64 bytes is passed on as it is, and any other one raises `KeyLengthError`, which is the abort action. -/
theorem ksCheckPassesExactly64Bytes : Obligations.KsCheckPassesExactly64Bytes := by
  refine fun s => ⟨fun checked => ?_, fun unchecked => ?_⟩
  · rw [exec_ksCheck, keyCheckThen_of_key id checked, id]
  · rw [exec_ksCheck, keyCheckThen_of_bad_key id unchecked]
    rfl

/-! ### The round keys (R132) -/

@[simp] theorem exec_ksView (r : RoundIndex) (s : State) : exec (.ksView r) s = .next { s with ret := .roundKey (roundKey s.key r) } := rfl

theorem roundKey_get (key : Key) (r : RoundIndex) {i : Nat} (hi : i < 4) : (roundKey key r)[i] = key[keyIndex r ⟨i, hi⟩] := by
  simp [roundKey]

/-- The round keys are disjoint: a key index has one round and one lane. -/
theorem keyIndex_inj {r r' : RoundIndex} {i i' : Fin 4} : keyIndex r i = keyIndex r' i' ↔ r = r' ∧ i = i' := by
  rw [Fin.ext_iff, keyIndex_val, keyIndex_val, ← BitVec.toNat_inj, Fin.ext_iff]
  omega

/-- The round keys cover the key: the round and the lane of a key index are its quotient and its remainder by 4. -/
theorem keyIndex_div_mod (j : Fin 64) : keyIndex (BitVec.ofNat 4 (j / 4)) ⟨j % 4, by omega⟩ = j := by
  ext1
  have round_lt : j.val / 4 < 16 := by omega
  simp only [keyIndex_val, BitVec.toNat_ofNat, Nat.reducePow, Nat.mod_eq_of_lt round_lt, Nat.div_add_mod]

/-- Settles O23: the view is the round key, and `keyIndex` is one to one and onto. -/
theorem ksViewReturnsTheRoundKey : Obligations.KsViewReturnsTheRoundKey := by
  refine ⟨fun r s => ⟨roundKey s.key r, exec_ksView r s, fun i hi => roundKey_get s.key r hi⟩,
    fun j => ⟨_, _, keyIndex_div_mod j, fun r i at_j => ?_⟩⟩
  exact keyIndex_inj.mp (at_j.trans (keyIndex_div_mod j).symm)

end Sys2Proof.Machine

/-! # The chaining engine family (spec/42_chaining_engine.md): each operation as a whole, who writes `PREV`, the round trip of two runs -/

namespace Sys2Proof.Machine

/-! ### The computations in closed form -/

theorem len_chunkOfBlock (b : Block) : (chunkOfBlock b).len = Config.blockSize := Vector.length_toList

/-- R140 after a full draw: the block offered is the transformed IV. -/
theorem ceIvgen_closed (iv : Block) (s : State) :
    sameButHidden (ceIvgen (chunkOfBlock iv) s)
      { s with blk := xorBlock iv (keyMask s.key), pending := some (.offer (xorBlock iv (keyMask s.key)).toList .ivgen) } := by
  rw [ceIvgen, if_pos (len_chunkOfBlock iv)]
  simp [sameButHidden_iff, chunkOfBlock]

/-- R141 up to the write. -/
theorem ceEncFull_closed (b : Block) (s : State) :
    sameButHidden (ceEncFull b s)
      { s with
        blk := xorBlock (xorBlock b s.prev) (keyMask s.key)
        pending := some (.offer (xorBlock (xorBlock b s.prev) (keyMask s.key)).toList .encFull) } := by
  simp [sameButHidden_iff, ceEncFull]

/-- R142 up to the write. -/
theorem ceEncTail_closed (b : List Byte) (s : State) :
    sameButHidden (ceEncTail b s)
      { s with
        blk := xorBlock (xorBlock (pad8 b) s.prev) (keyMask s.key)
        pending := some (.offer (firstBytes b.length (xorBlock (xorBlock (pad8 b) s.prev) (keyMask s.key))) .encTail) } := by
  simp [sameButHidden_iff, ceEncTail]

/-- R144 up to the write. -/
theorem ceDecFull_closed (b : Block) (s : State) :
    sameButHidden (ceDecFull b s)
      { s with
        ct := b, blk := xorBlock (xorBlock b (keyMask s.key)) s.prev
        pending := some (.offer (xorBlock (xorBlock b (keyMask s.key)) s.prev).toList .decFull) } := by
  simp [sameButHidden_iff, ceDecFull]

/-- R145 up to the write; no transform runs (R147). -/
theorem ceDecTail_closed (b : List Byte) (s : State) :
    sameButHidden (ceDecTail b s)
      { s with
        blk := xorBlock (pad8 b) s.prev
        pending := some (.offer (firstBytes b.length (xorBlock (pad8 b) s.prev)) .decTail) } := rfl

/-! ### An operation whose write is answered -/

theorem sameButHidden.pending {a b : State} (h : sameButHidden a b) : a.pending = b.pending := by rw [← h]

/-- What follows a write does not read the hidden state, nor what was pending. -/
theorem sameButHidden.afterWrite {x y : State} (h : sameButHidden x y) (v : List Byte) (k : After) (a : OutAnswer)
    (q : List (Option OutAnswer)) (p p' : Option Pending) (l : List Event) :
    sameButHidden (Machine.afterWrite v k a { x with outQ := q, pending := p, log := l })
      (Machine.afterWrite v k a { y with outQ := q, pending := p', log := l }) := by
  rw [← h]
  cases a with
  | ok => cases k <;> rfl
  | short | err => rfl

section answered
variable {i : Instr} {s x y : State} {v : List Byte} {k : After} {a : OutAnswer} {q : List (Option OutAnswer)}

/-- An operation that comes to its write, when the next answer of the sink is `a`. -/
theorem ComesToWrite.exec_of_answer (h : ComesToWrite i s v k x) (answered : s.outQ = some a :: q) :
    exec i s = .next (afterWrite v k a { x with outQ := q, pending := some (.written v k a), log := .write v a :: x.log }) := by
  have same : ({ s with outQ := some a :: q } : State) = s := by rw [← answered]
  exact same ▸ h.answered a q

/-- An operation that comes to its write, when the sink is silent. -/
theorem ComesToWrite.exec_of_silence (h : ComesToWrite i s v k x) (silent : s.outQ.head? = none ∨ s.outQ.head? = some none) :
    exec i s = .next { x with outQ := s.outQ.tail, pending := some (.write v k) } := by
  obtain ⟨n, hn⟩ := h
  have waits := askWrite_of_silence v k (s := { x with outQ := s.outQ }) silent
  rw [hn s.outQ, waits, carryOn_waiting _ _ (.write v k) rfl rfl]

/-- Both outcomes of an operation whose write is answered, from the closed form `y` of the state that offers the bytes. -/
theorem ComesToWrite.outcomes (h : ComesToWrite i s v k x) (closed : sameButHidden x y) (answered : s.outQ = some a :: q) :
    ∃ t, exec i s = .next t ∧
      (a = .ok → sameButHidden t (finish k v.length { y with outQ := q, pending := none, log := .write v .ok :: y.log })) ∧
      (a ≠ .ok → sameButHidden t (raise .io { y with outQ := q, pending := none, log := .write v a :: y.log })) := by
  refine ⟨_, h.exec_of_answer answered, ?_⟩
  rw [closed.log]
  have outcome := closed.afterWrite v k a q (some (.written v k a)) none (.write v a :: y.log)
  constructor
  · rintro rfl
    exact outcome
  · intro failed
    rwa [afterWrite_fail v k a { y with outQ := q, pending := none, log := .write v a :: y.log } failed] at outcome

end answered

/-- Settles O24: after a full draw the transformed IV is offered; `finish` seeds the chain with it, and a failed write is `raise .io`. -/
theorem ceIvgenEmitsTheTransformedIv : Obligations.CeIvgenEmitsTheTransformedIv := by
  intro s iv a rq oq drawn answered
  have closed := ceIvgen_closed iv { s with rngQ := rq, pending := none, log := .draw (chunkOfBlock iv) :: s.log }
  have writes : ComesToWrite .ceIvgen s _ .ivgen _ :=
    comesToWrite_of_offer 0
      (fun q => ceIvgen_outQ_comm (chunkOfBlock iv) _ q ▸ exec_ceIvgen_of_draw (s := { s with outQ := q }) drawn) closed.pending
  exact writes.outcomes closed answered

/-- Settles O25: a draw that is not full is `raise .entropySource`, which ends the operation. -/
theorem shortDrawRaisesEntropySourceError : Obligations.ShortDrawRaisesEntropySourceError := by
  intro s c rq drawn short
  have not_full : c.len ≠ Config.blockSize := Nat.ne_of_lt short
  rw [exec_ceIvgen_of_draw drawn, ceIvgen, if_neg not_full, carryOn_ended 2 _ (raise_pending ..)]
  rfl

/-- Settles O26: the block of the closed form is offered; `finish` makes it `PREV` and counts its 8 bytes. -/
theorem ceEncFullChainsAndEmits : Obligations.CeEncFullChainsAndEmits := by
  intro s b a oq answered
  have closed := ceEncFull_closed b s
  have writes : ComesToWrite (.ceEncFull b) s _ .encFull _ :=
    comesToWrite_of_computation (fun _ => rfl) (ceEncFull_outQ_comm b s) closed.pending
  have outcomes := writes.outcomes closed answered
  rw [Vector.length_toList] at outcomes
  exact outcomes

/-- Settles O29: the block of the closed form is offered; `finish` makes the chunk kept in `CT` the new `PREV`. -/
theorem ceDecFullUnchainsAndEmits : Obligations.CeDecFullUnchainsAndEmits := by
  intro s b a oq answered
  have closed := ceDecFull_closed b s
  have writes : ComesToWrite (.ceDecFull b) s _ .decFull _ :=
    comesToWrite_of_computation (fun _ => rfl) (ceDecFull_outQ_comm b s) closed.pending
  have outcomes := writes.outcomes closed answered
  rw [Vector.length_toList] at outcomes
  exact outcomes

/-- Settles O28: `CE.IVLOAD` is the update of the two fields. -/
theorem ceIvloadSeedsTheChain : Obligations.CeIvloadSeedsTheChain := fun _ _ => rfl

/-! ### The tails -/

theorem firstBytes_get {n : Nat} {b : Block} {j : Nat} (hv : j < (firstBytes n b).length) (h8 : j < 8) : (firstBytes n b)[j] = b[j] := by
  simp [firstBytes]

/-- Below the length of the tail, the padded tail has the bytes of the tail. -/
theorem pad8_get_of_lt {b : List Byte} {j : Nat} (hj : j < b.length) (h8 : j < 8) : (pad8 b)[j] = b[j] := by simp [hj]

/-- Settles O27: the first bytes of the closed form are offered, and `finish` counts them and ends the run. -/
theorem ceEncTailEmitsTheUnpaddedBytes : Obligations.CeEncTailEmitsTheUnpaddedBytes := by
  intro s b oq low high answered
  have closed := ceEncTail_closed b s
  have writes : ComesToWrite (.ceEncTail b) s _ .encTail _ :=
    comesToWrite_of_computation (fun _ => if_pos (tailLength_iff.2 ⟨low, high⟩)) (ceEncTail_outQ_comm b s) closed.pending
  obtain ⟨t, next, ok, -⟩ := writes.outcomes closed answered
  have length := firstBytes_length b.length (xorBlock (xorBlock (pad8 b) s.prev) (keyMask s.key)) (by omega)
  rw [length] at ok
  refine ⟨t, _, next, ok rfl, length, fun j hj hv h8 => ?_⟩
  rw [firstBytes_get hv h8, xorBlock_get, xorBlock_get, pad8_get_of_lt hj h8]

/-- `CE.DEC.TAIL` comes to the write of the first bytes of `pad8(b) ^ PREV`. -/
theorem comesToWrite_ceDecTail {b : List Byte} (tail : tailLength b = true) (s : State) :
    ComesToWrite (.ceDecTail b) s (firstBytes b.length (xorBlock (pad8 b) s.prev)) .decTail (ceDecTail b s) :=
  comesToWrite_of_computation (fun _ => if_pos tail) (fun _ => rfl) rfl

/-- Settles O30: no transform runs, so the state that offers the bytes is exact, the hidden round state included. -/
theorem ceDecTailXorsOnly : Obligations.CeDecTailXorsOnly := by
  intro s b oq low high answered
  have next := (comesToWrite_ceDecTail (tailLength_iff.2 ⟨low, high⟩) s).exec_of_answer answered
  have length := firstBytes_length b.length (xorBlock (pad8 b) s.prev) (by omega)
  rw [afterWrite_ok, length] at next
  refine ⟨_, next, length, fun j hj hv h8 => ?_⟩
  rw [firstBytes_get hv h8, xorBlock_get, pad8_get_of_lt hj h8]

/-- The sink answers the next write, or is silent. -/
theorem sink_cases (s : State) : (∃ a q, s.outQ = some a :: q) ∨ s.outQ.head? = none ∨ s.outQ.head? = some none := by
  rcases s.outQ with _ | ⟨_ | a, q⟩
  · exact .inr (.inl rfl)
  · exact .inr (.inr rfl)
  · exact .inl ⟨a, q, rfl⟩

/-- What follows a write does not read the key. -/
theorem afterWrite_key_comm (v : List Byte) (k : After) (a : OutAnswer) (s : State) (K : Key) :
    afterWrite v k a { s with key := K } = { afterWrite v k a s with key := K } := by
  cases a with
  | ok => cases k <;> rfl
  | short | err => rfl

/-- Settles O31: neither the bytes offered nor what follows their write depends on the key, whether the sink answers or is silent. -/
theorem ceDecTailIgnoresTheKey : Obligations.CeDecTailIgnoresTheKey := by
  intro s t b K next
  cases tail : tailLength b with
  | false => simp [exec, execCeDecTail, tail] at next
  | true =>
    have writes := comesToWrite_ceDecTail tail s
    have writes' := comesToWrite_ceDecTail tail { s with key := K }
    obtain ⟨a, q, answered⟩ | silent := sink_cases s
    · rw [writes.exec_of_answer answered] at next
      rw [← Host.Outcome.next.inj next, ← afterWrite_key_comm]
      exact writes'.exec_of_answer answered
    · rw [writes.exec_of_silence silent] at next
      rw [← Host.Outcome.next.inj next]
      exact writes'.exec_of_silence silent

/-! ### Who writes `PREV` (R146) -/

section prevKept
variable (s : State)

theorem askDraw_prev : (askDraw s).prev = s.prev := by obtain ⟨_, _, -, e⟩ | ⟨-, e⟩ := askDraw_cases s <;> rw [e]
theorem askRead_prev (k : Reader) : (askRead k s).prev = s.prev := by obtain ⟨_, _, -, e⟩ | ⟨-, e⟩ := askRead_cases k s <;> rw [e]
theorem askWrite_prev (v : List Byte) (k : After) : (askWrite v k s).prev = s.prev := by
  obtain ⟨_, _, -, e⟩ | ⟨-, e⟩ := askWrite_cases v k s <;> rw [e]

theorem ceIvgen_prev (c : Chunk) : (ceIvgen c s).prev = s.prev := by
  unfold ceIvgen
  split <;> simp

/-- The loop writes `PREV` after its write only. -/
theorem streamChunk_prev (c : Chunk) : (streamChunk c s).prev = s.prev := by
  unfold streamChunk
  split
  · split
    · simp [ceEncFull]
    · simp [ceDecFull]
  · split
    · split
      · simp [ceEncTail]
      · rfl
    · rfl

theorem startOp_prev (d : Dir) : (startOp d s).prev = s.prev := by
  cases busy : s.phase.busy with
  | true => rw [startOp_of_busy d busy]
  | false =>
    by_cases checked : s.keylen = 64
    · rw [startOp_of_key d busy checked]
    · rw [startOp_of_bad_key d busy checked, raise_prev]

end prevKept

/-- Everything the next step of an operation can do to `PREV`: leave it, load it with a full first chunk, or finish an operation whose
write has returned `Ok`. -/
theorem advance_prev_cases (p : Pending) (s : State) :
    (advance p s).prev = s.prev ∨
    (∃ c, p = .readDone .stepSeed (.data c) ∧ c.len = 8 ∧ advance p s = ceIvload (pad8 c.bytes) { s with pending := none }) ∨
    (∃ v k, p = .written v k .ok ∧ (k = .ivgen ∨ k = .encFull ∨ k = .decFull)) := by
  cases p with
  | draw => exact .inl (askDraw_prev s)
  | drawn c => exact .inl (ceIvgen_prev { s with pending := none } c)
  | read k => exact .inl (askRead_prev s k)
  | offer v k | write v k => exact .inl (askWrite_prev s v k)
  | readDone k a =>
    cases a with
    | err => exact .inl rfl
    | data c =>
      cases k with
      | bare => exact .inl rfl
      | stepStream => exact .inl (streamChunk_prev { s with pending := none } c)
      | stepSeed =>
        by_cases full : c.len = 8
        · exact .inr (.inl ⟨c, rfl, full, if_pos full⟩)
        · have aborts : advance (.readDone .stepSeed (.data c)) s = raise .io { s with pending := none } := if_neg full
          exact .inl (by rw [aborts, raise_prev])
  | written v k a =>
    cases a with
    | short | err => exact .inl rfl
    | ok =>
      cases k with
      | bare | encTail | decTail => exact .inl rfl
      | ivgen => exact .inr (.inr ⟨v, _, rfl, .inl rfl⟩)
      | encFull => exact .inr (.inr ⟨v, _, rfl, .inr (.inl rfl)⟩)
      | decFull => exact .inr (.inr ⟨v, _, rfl, .inr (.inr rfl)⟩)

/-- `CE.IVLOAD` of the full first chunk just read leads from `s` to `t`. -/
def LoadsChain (s t : State) : Prop :=
  t.phase = .stream ∧ t.dir = .decrypt ∧ s.phase = .seed ∧ t.log = s.log ∧
    ∃ (c : Chunk) (l : List Event), s.pending = some (.readDone .stepSeed (.data c)) ∧ s.log = .read (.data c) :: l ∧
      c.len = 8 ∧ t.prev = pad8 c.bytes

/-- The end of an operation on a full block leads from `s` to `t`, its write accepted just before. -/
def ChainsBlock (s t : State) : Prop :=
  t.phase = .stream ∧ t.log = s.log ∧
    ∃ (v : List Byte) (k : After) (l : List Event), s.pending = some (.written v k .ok) ∧ s.log = .write v .ok :: l ∧
      (k = .ivgen ∨ k = .encFull ∨ k = .decFull) ∧
      (t.dir = .encrypt → v = t.prev.toList) ∧ (t.dir = .decrypt → lastFullRead s.log = some t.prev)

section prevChanges
variable {s : State} (inv : RunInv s)
include inv

theorem loadsChain_of_full_chunk {c : Chunk} (hp : s.pending = some (.readDone .stepSeed (.data c))) (full : c.len = 8) :
    LoadsChain s (ceIvload (pad8 c.bytes) { s with pending := none }) := by
  have fits := inv.pending_fits
  rw [pendingFits, hp] at fits
  obtain ⟨⟨seed, decrypts⟩, newest⟩ := fits
  obtain ⟨l, log⟩ := List.head?_eq_some_iff.mp newest
  exact ⟨rfl, decrypts, seed, rfl, c, l, hp, log, full, rfl⟩

theorem chainsBlock_of_accepted {v : List Byte} {k : After} (hp : s.pending = some (.written v k .ok))
    (block : k = .ivgen ∨ k = .encFull ∨ k = .decFull) : ChainsBlock s (finish k v.length { s with pending := none }) := by
  have fits := inv.pending_fits
  rw [pendingFits, hp] at fits
  obtain ⟨fits, newest⟩ := fits
  obtain ⟨l, log⟩ := List.head?_eq_some_iff.mp newest
  obtain rfl | rfl | rfl := block
  · obtain ⟨-, encrypts, offered⟩ := fits
    exact ⟨rfl, rfl, v, _, l, hp, log, .inl rfl, fun _ => offered, fun decrypts => by simp [encrypts] at decrypts⟩
  · obtain ⟨stream, encrypts, offered⟩ := fits
    exact ⟨stream, rfl, v, _, l, hp, log, .inr (.inl rfl), fun _ => offered, fun decrypts => by simp [encrypts] at decrypts⟩
  · obtain ⟨stream, decrypts, -, read⟩ := fits
    exact ⟨stream, rfl, v, _, l, hp, log, .inr (.inr rfl), fun encrypts => by simp [decrypts] at encrypts, fun _ => read⟩

/-- A move of the core that changes `PREV` is one of the two. -/
theorem CoreMove.prev_change {t : State} (m : CoreMove s t) (changed : t.prev ≠ s.prev) : LoadsChain s t ∨ ChainsBlock s t := by
  cases m with
  | stay _ _ eq => exact absurd (congrArg State.prev eq) changed
  | draw _ _ _ eq => exact absurd (eq ▸ askDraw_prev s) changed
  | seed _ _ _ eq | stream _ _ eq => exact absurd (eq ▸ askRead_prev s _) changed
  | advance p hp eq =>
    subst eq
    obtain same | ⟨c, rfl, full, loads⟩ | ⟨v, k, rfl, block⟩ := advance_prev_cases p s
    · exact absurd same changed
    · exact .inl (loads ▸ loadsChain_of_full_chunk inv hp full)
    · exact .inr (chainsBlock_of_accepted inv hp block)

end prevChanges

/-- Settles O51: of the moves of a step, only reset and the core's move write `PREV`, and the core's move does so in two places. -/
theorem prevChangesOnlyAfterItsBlock : Obligations.PrevChangesOnlyAfterItsBlock := by
  intro s t inv hstep changed
  cases move_of_step (headNotSelect_of_noSelect inv.no_select) hstep with
  | load key q head eq => exact absurd (by rw [eq]; split <;> rfl) changed
  | start d q head eq => exact absurd (eq ▸ startOp_prev _ d) changed
  | sr q head eq => exact absurd (eq ▸ rfl) changed
  | reset q head => exact .inl ⟨q, head⟩
  | core q turn move =>
    have next : RunInv { s with sched := q } := by
      obtain head | ⟨-, rfl⟩ := turn
      · exact inv.next_slot head
      · exact inv.with_sched nofun
    exact .inr (move.prev_change next changed)

/-! ### A payload, chunk by chunk -/

/-- A payload is full chunks and a tail of fewer than 8 bytes. -/
theorem chunks_induction {motive : List Byte → Prop} (tail : ∀ P : List Byte, P.length < 8 → motive P)
    (block : ∀ (b : Block) (rest : List Byte), motive rest → motive (b.toList ++ rest)) (P : List Byte) : motive P := by
  by_cases short : P.length < 8
  · exact tail P short
  · have first : (P.take 8).length = 8 := by simp; omega
    have split : (pad8 (P.take 8)).toList ++ P.drop 8 = P := by rw [toList_pad8 first, List.take_append_drop]
    exact split ▸ block _ _ (chunks_induction tail block (P.drop 8))
termination_by P.length
decreasing_by simp; omega

theorem block_eq_bytes (b : Block) : b = #v[b[0], b[1], b[2], b[3], b[4], b[5], b[6], b[7]] := by
  ext1 j hj
  match j, hj with
  | 0, _ | 1, _ | 2, _ | 3, _ | 4, _ | 5, _ | 6, _ | 7, _ => rfl

/-- The block written for the full chunk `b`, given the mask and the chain (R141, R144). -/
def emitted (d : Dir) (m chain b : Block) : Block :=
  match d with
  | .encrypt => xorBlock (xorBlock b chain) m
  | .decrypt => xorBlock (xorBlock b m) chain

/-- The chain after the full chunk `b` (R146): the ciphertext block of the two. -/
def chained (d : Dir) (m chain b : Block) : Block :=
  match d with
  | .encrypt => emitted .encrypt m chain b
  | .decrypt => b

/-- The output for the payload `P` (R148). -/
def payload (d : Dir) (m chain : Block) (P : List Byte) : List Byte :=
  match d with
  | .encrypt => encPayload m chain P
  | .decrypt => decPayload m chain P

section payload
variable (d : Dir) (m chain : Block)

theorem payload_block (b : Block) (rest : List Byte) :
    payload d m chain (b.toList ++ rest) = (emitted d m chain b).toList ++ payload d m (chained d m chain b) rest := by
  rw [block_eq_bytes b]
  cases d <;> rfl

theorem encPayload_tail {P : List Byte} (short : P.length < 8) :
    encPayload m chain P = firstBytes P.length (xorBlock (xorBlock (pad8 P) chain) m) := by
  unfold encPayload
  split
  · simp at short; omega
  · rfl

theorem decPayload_tail {P : List Byte} (short : P.length < 8) :
    decPayload m chain P = firstBytes P.length (xorBlock (pad8 P) chain) := by
  unfold decPayload
  split
  · simp at short; omega
  · rfl

theorem payload_length (P : List Byte) : (payload d m chain P).length = P.length := by
  induction P using chunks_induction generalizing chain with
  | tail P short =>
    cases d with
    | encrypt => rw [payload, encPayload_tail m chain short, firstBytes_length _ _ (by omega)]
    | decrypt => rw [payload, decPayload_tail m chain short, firstBytes_length _ _ (by omega)]
  | block b rest ih => simp [payload_block, ih]

end payload

/-- The well-behaved source delivers a full chunk, then what it delivers for the rest (20_memory.md R55). -/
theorem wbAnswers_block (b : Block) (rest : List Byte) :
    wbAnswers (b.toList ++ rest) = some (.data (chunkOfBlock b)) :: wbAnswers rest := by
  have first : chunkAt (b.toList ++ rest) 0 = chunkOfBlock b := by simp [chunkAt, chunkOfBlock]
  have later (c : Nat) : chunkAt (b.toList ++ rest) (c + 1) = chunkAt rest c := by
    have skip : 8 * (c + 1) = b.toList.length + 8 * c := by simp; omega
    simp only [chunkAt, skip, List.drop_length_add_append]
  simp [wbAnswers, List.range_succ_eq_map, first, later]

/-- The last chunk is the tail, or the empty one that ends the stream. -/
theorem wbAnswers_tail {P : List Byte} (short : P.length < 8) : ∃ c : Chunk, c.bytes = P ∧ wbAnswers P = [some (.data c)] := by
  refine ⟨chunkAt P 0, by simp [chunkAt]; omega, ?_⟩
  simp [wbAnswers, Nat.div_eq_of_lt short]

theorem payloadMoves_block (n : Nat) : payloadMoves (8 + n) = 4 + payloadMoves n := by
  simp only [payloadMoves, Nat.add_mod_left]
  omega

theorem payloadWrites_block (n : Nat) : payloadWrites (8 + n) = payloadWrites n + 1 := by
  simp only [payloadWrites, Nat.add_mod_left]
  omega

/-! ### Several steps of the core -/

theorem sameButHidden.key {a b : State} (h : sameButHidden a b) : a.key = b.key := by rw [← h]
theorem sameButHidden.outQ {a b : State} (h : sameButHidden a b) : a.outQ = b.outQ := by rw [← h]

/-- The steps of a run, cut in two. -/
theorem runSteps_add {m : Nat} (n : Nat) {s t : State} (first : runSteps m s = .next t) : runSteps (m + n) s = runSteps n t := by
  induction m generalizing s with
  | zero =>
    obtain rfl : s = t := Host.Outcome.next.inj first
    rw [Nat.zero_add]
  | succ m ih =>
    rw [Nat.add_right_comm]
    cases hstep : step s with
    | next u =>
      rw [runSteps_succ hstep] at first ⊢
      exact ih first
    | fault r | refused r => simp [runSteps, Host.Core.run, Sys2Proof.core, hstep] at first

/-- A write that is due and accepted: the write is one step, the end of its operation the second. -/
theorem runSteps_accepted_write {x y : State} {v : List Byte} {k : After} {q : List (Option OutAnswer)} (closed : sameButHidden x y)
    (sched : y.sched = []) (due : y.pending = some (.offer v k)) (accepted : y.outQ = some .ok :: q) :
    ∃ t, runSteps 2 x = .next t ∧
      sameButHidden t (finish k v.length { y with outQ := q, pending := none, log := .write v .ok :: y.log }) := by
  have hs : x.sched = [] := closed.sched.trans sched
  have writes := step_write (.inr ⟨hs, rfl⟩) (.inl (closed.pending.trans due)) (closed.outQ.trans accepted)
  rw [runSteps_succ writes, ← hs, closed.log]
  refine ⟨_, runSteps_succ (step_advance (p := .written v k .ok) hs rfl), ?_⟩
  exact closed.afterWrite v k .ok q (some (.written v k .ok)) none (.write v .ok :: y.log)

/-- The core is between two chunks of the loop, the host is silent, the source delivers `P` and the sink accepts what is made of it. -/
structure LoopReady (s : State) (P : List Byte) : Prop where
  stream : s.phase = .stream
  free : s.pending = none
  sched : s.sched = []
  source : ∃ q, s.inQ = wbAnswers P ++ q
  sink : ∃ q, s.outQ = List.replicate (payloadWrites P.length) (some .ok) ++ q

/-- From `s` to `t` the core has read `reads` chunks, and written and counted the bytes `out` in `writes` writes. -/
structure Pumps (s t : State) (out : List Byte) (reads writes : Nat) : Prop where
  key : t.key = s.key
  dir : t.dir = s.dir
  cause : t.cause = s.cause
  count : t.count = addCount s.count out.length
  out : runOut t.log = runOut s.log ++ out
  draws : eventCount Event.isDraw t.log = eventCount Event.isDraw s.log
  reads : eventCount Event.isRead t.log = eventCount Event.isRead s.log + reads
  writes : eventCount Event.isWrite t.log = eventCount Event.isWrite s.log + writes

theorem Pumps.trans {s t u : State} {out out' : List Byte} {r r' w w' : Nat} (h : Pumps s t out r w) (h' : Pumps t u out' r' w') :
    Pumps s u (out ++ out') (r + r') (w + w') where
  key := h'.key.trans h.key
  dir := h'.dir.trans h.dir
  cause := h'.cause.trans h.cause
  count := by rw [h'.count, h.count, addCount, addCount, addCount, List.length_append, BitVec.ofNat_add, BitVec.add_assoc]
  out := by rw [h'.out, h.out, List.append_assoc]
  draws := h'.draws.trans h.draws
  reads := by rw [h'.reads, h.reads, Nat.add_assoc]
  writes := by rw [h'.writes, h.writes, Nat.add_assoc]

theorem eventCount_cons (p : Event → Bool) (e : Event) (l : List Event) :
    eventCount p (e :: l) = eventCount p l + if p e then 1 else 0 := List.countP_cons

/-- A read by itself. -/
theorem Pumps.of_read {s t : State} (a : InAnswer) (key : t.key = s.key := by rfl) (dir : t.dir = s.dir := by rfl)
    (cause : t.cause = s.cause := by rfl) (count : t.count = s.count := by rfl) (log : t.log = .read a :: s.log := by rfl) :
    Pumps s t [] 1 0 := by
  constructor <;> simp [key, dir, cause, count, log, addCount, runOut, eventCount_cons, Event.isRead, Event.isDraw, Event.isWrite]

/-- A read and the write of what was made of it. -/
theorem Pumps.of_read_write {s t : State} {v : List Byte} (a : InAnswer) (key : t.key = s.key := by rfl) (dir : t.dir = s.dir := by rfl)
    (cause : t.cause = s.cause := by rfl) (count : t.count = addCount s.count v.length := by rfl)
    (log : t.log = .write v .ok :: .read a :: s.log := by rfl) : Pumps s t v 1 1 := by
  constructor <;> simp [key, dir, cause, count, log, runOut, eventCount_cons, Event.isRead, Event.isDraw, Event.isWrite]

/-! What the core does in a stretch is not in the hidden state: neither in the one it ends with nor in the one it begins with. -/

theorem Pumps.of_sameButHidden {s t u : State} {out : List Byte} {r w : Nat} (same : sameButHidden t u) (h : Pumps s u out r w) :
    Pumps s t out r w := by
  rw [← same] at h
  exact { h with }

theorem Pumps.from_sameButHidden {s t u : State} {out : List Byte} {r w : Nat} (same : sameButHidden s u) (h : Pumps s t out r w) :
    Pumps u t out r w := by
  rw [← same]
  exact { h with }

/-- The loop does not read the hidden state. -/
theorem LoopReady.of_sameButHidden {t u : State} {P : List Byte} (same : sameButHidden t u) (h : LoopReady u P) : LoopReady t P := by
  rw [← same] at h
  exact { h with }

section chunkWritten
variable {d : Dir} {s : State} {q : List (Option OutAnswer)} (dir : s.dir = d) (sched : s.sched = [])
  (accepted : s.outQ = some .ok :: q)
include dir sched accepted

/-- A full chunk, once computed, is written and chained in two steps. -/
theorem runSteps_streamChunk_block (b : Block) :
    ∃ t blk ct, runSteps 2 (streamChunk (chunkOfBlock b) s) = .next t ∧
      sameButHidden t
        { s with
          blk, ct, prev := chained d (keyMask s.key) s.prev b
          count := addCount s.count (emitted d (keyMask s.key) s.prev b).toList.length, outQ := q, pending := none
          log := .write (emitted d (keyMask s.key) s.prev b).toList .ok :: s.log } := by
  have unpadded : pad8 (chunkOfBlock b).bytes = b := pad8_toList b
  cases d with
  | encrypt =>
    rw [streamChunk_of_encrypt _ dir, if_pos (len_chunkOfBlock b), unpadded]
    obtain ⟨t, steps, h⟩ := runSteps_accepted_write (ceEncFull_closed b s) sched rfl accepted
    exact ⟨t, _, _, steps, h⟩
  | decrypt =>
    rw [streamChunk_of_decrypt _ dir, if_pos (len_chunkOfBlock b), unpadded]
    obtain ⟨t, steps, h⟩ := runSteps_accepted_write (ceDecFull_closed b s) sched rfl accepted
    exact ⟨t, _, _, steps, h⟩

/-- A tail, once computed, is written in two steps, and ends the run. -/
theorem runSteps_streamChunk_tail {c : Chunk} (tail : tailLength c.bytes = true) :
    ∃ t blk, runSteps 2 (streamChunk c s) = .next t ∧
      sameButHidden t
        { s with
          blk, phase := .done
          count := addCount s.count (payload d (keyMask s.key) s.prev c.bytes).length, outQ := q, pending := none
          log := .write (payload d (keyMask s.key) s.prev c.bytes) .ok :: s.log } := by
  obtain ⟨low, high⟩ : 1 ≤ c.len ∧ c.len ≤ 7 := tailLength_iff.1 tail
  have short : c.bytes.length < 8 := Nat.lt_succ_of_le high
  have partial_chunk : c.len ≠ Config.blockSize := Nat.ne_of_lt short
  cases d with
  | encrypt =>
    rw [streamChunk_of_encrypt _ dir, if_neg partial_chunk, if_pos low, payload, encPayload_tail _ _ short]
    obtain ⟨t, steps, h⟩ := runSteps_accepted_write (ceEncTail_closed c.bytes s) sched rfl accepted
    exact ⟨t, _, steps, h⟩
  | decrypt =>
    rw [streamChunk_of_decrypt _ dir, if_neg partial_chunk, if_pos low, payload, decPayload_tail _ _ short]
    obtain ⟨t, steps, h⟩ := runSteps_accepted_write (ceDecTail_closed c.bytes s) sched rfl accepted
    exact ⟨t, _, steps, h⟩

end chunkWritten

/-- The read of the loop and what is done with its chunk are two steps. -/
theorem runSteps_chunk {s : State} {P : List Byte} (ready : LoopReady s P) {c : Chunk} {q : List (Option InAnswer)}
    (read : s.inQ = some (.data c) :: q) :
    runSteps 2 s = .next (streamChunk c { s with inQ := q, pending := none, log := .read (.data c) :: s.log }) := by
  have reads := step_read (.inr ⟨ready.sched, rfl⟩) (.inr (.inr ⟨ready.free, rfl, ready.stream⟩)) read
  rw [runSteps_succ reads, ← ready.sched]
  exact runSteps_succ (step_advance (p := .readDone .stepStream (.data c)) ready.sched rfl)

/-- With the source at the payload `P`, the core reads it to its end and writes the output for it. -/
def RunsOut (s : State) (P : List Byte) : Prop :=
  ∃ t, runSteps (payloadMoves P.length) s = .next t ∧ t.phase = .done ∧
    Pumps s t (payload s.dir (keyMask s.key) s.prev P) (P.length / 8 + 1) (payloadWrites P.length)

theorem runsOut_empty {s : State} (ready : LoopReady s []) : RunsOut s [] := by
  obtain ⟨q, source⟩ := ready.source
  obtain ⟨c, empty, answers⟩ := wbAnswers_tail (P := []) (by decide)
  have read : s.inQ = some (.data c) :: q := by rw [source, answers]; rfl
  have ends : streamChunk c { s with inQ := q, pending := none, log := .read (.data c) :: s.log } =
      endOp { s with inQ := q, pending := none, log := .read (.data c) :: s.log } := by simp [streamChunk, Chunk.len, empty]
  have nothing : payload s.dir (keyMask s.key) s.prev [] = [] := List.length_eq_zero_iff.1 (payload_length ..)
  refine ⟨_, (runSteps_chunk ready read).trans (congrArg _ ends), rfl, ?_⟩
  rw [nothing]
  exact .of_read (.data c)

theorem runsOut_tail {s : State} {P : List Byte} (ready : LoopReady s P) (tail : tailLength P = true) : RunsOut s P := by
  obtain ⟨low, high⟩ := tailLength_iff.1 tail
  obtain ⟨q, source⟩ := ready.source
  obtain ⟨oq, sink⟩ := ready.sink
  obtain ⟨c, rfl, answers⟩ := wbAnswers_tail (Nat.lt_succ_of_le high)
  have chunks : c.bytes.length / 8 = 0 := Nat.div_eq_of_lt (Nat.lt_succ_of_le high)
  have rest : c.bytes.length % 8 ≠ 0 := by omega
  have moves : payloadMoves c.bytes.length = 4 := by simp [payloadMoves, chunks, rest]
  have writes : payloadWrites c.bytes.length = 1 := by simp [payloadWrites, chunks, rest]
  have read : s.inQ = some (.data c) :: q := by rw [source, answers]; rfl
  have accepted : s.outQ = some .ok :: oq := by rw [sink, writes]; rfl
  obtain ⟨t, blk, steps, same⟩ := runSteps_streamChunk_tail
    (s := { s with inQ := q, pending := none, log := .read (.data c) :: s.log }) rfl ready.sched accepted tail
  refine ⟨t, ?_, congrArg State.phase same, .of_sameButHidden same ?_⟩
  · rw [moves, runSteps_add 2 (runSteps_chunk ready read), steps]
  · rw [chunks, writes]
    exact .of_read_write (.data c)

theorem runsOut_block {s : State} {b : Block} {rest : List Byte} (ready : LoopReady s (b.toList ++ rest))
    (later : ∀ t, LoopReady t rest → RunsOut t rest) : RunsOut s (b.toList ++ rest) := by
  obtain ⟨q, source⟩ := ready.source
  obtain ⟨oq, sink⟩ := ready.sink
  have length : (b.toList ++ rest).length = 8 + rest.length := by simp
  have read : s.inQ = some (.data (chunkOfBlock b)) :: (wbAnswers rest ++ q) := by rw [source, wbAnswers_block]; rfl
  have accepted : s.outQ = some .ok :: (List.replicate (payloadWrites rest.length) (some .ok) ++ oq) := by
    rw [sink, length, payloadWrites_block]; rfl
  obtain ⟨t, blk, ct, steps, same⟩ := runSteps_streamChunk_block
    (s := { s with inQ := wbAnswers rest ++ q, pending := none, log := .read (.data (chunkOfBlock b)) :: s.log })
    rfl ready.sched accepted b
  have first : Pumps s t (emitted s.dir (keyMask s.key) s.prev b).toList 1 1 :=
    .of_sameButHidden same (.of_read_write (.data (chunkOfBlock b)))
  obtain ⟨u, more, done, pumps⟩ := later t (.of_sameButHidden same ⟨ready.stream, rfl, ready.sched, ⟨q, rfl⟩, ⟨oq, rfl⟩⟩)
  refine ⟨u, ?_, done, ?_⟩
  · rw [length, payloadMoves_block, Nat.add_assoc 2 2, runSteps_add _ (runSteps_chunk ready read), runSteps_add _ steps, more]
  · have chain : t.prev = chained s.dir (keyMask s.key) s.prev b := congrArg State.prev same
    have both := first.trans pumps
    rw [first.dir, first.key, chain, ← payload_block] at both
    have chunks : (8 + rest.length) / 8 + 1 = 1 + (rest.length / 8 + 1) := by omega
    rwa [length, chunks, payloadWrites_block, Nat.add_comm (payloadWrites _)]

/-- The loop runs out, whatever the payload. -/
theorem runsOut (P : List Byte) (s : State) (ready : LoopReady s P) : RunsOut s P := by
  induction P using chunks_induction generalizing s with
  | block b rest ih => exact runsOut_block ready ih
  | tail P short =>
    obtain rfl | tail | full := chunk_cases (Nat.le_of_lt short)
    · exact runsOut_empty ready
    · exact runsOut_tail ready tail
    · omega

/-! ### Whole runs -/

/-- `s` after an accepted `START d` that ends the schedule (R160). -/
def justStarted (d : Dir) (s : State) : State :=
  { s with sched := [], dir := d, count := 0, cause := .none, log := .started d :: s.log, phase := .seed }

/-- `s` after `START 0` and `CE.IVGEN`, up to the hidden state: the IV block is emitted, and the loop begins (R140). -/
def ivEmitted (s : State) (iv : Block) : State :=
  { s with
    sched := [], dir := .encrypt, phase := .stream, cause := .none, count := 0, pending := none, rngQ := s.rngQ.tail, outQ := s.outQ.tail
    blk := xorBlock iv (keyMask s.key), prev := xorBlock iv (keyMask s.key)
    log := .write (xorBlock iv (keyMask s.key)).toList .ok :: .draw (chunkOfBlock iv) :: .started .encrypt :: s.log }

/-- `s` after `START 1` and the IV step: the first block has seeded the chain, and the loop begins (R143). -/
def ivLoaded (s : State) (b : Block) : State :=
  { s with
    sched := [], dir := .decrypt, phase := .stream, cause := .none, count := 0, pending := none, inQ := s.inQ.tail, prev := b
    log := .read (.data (chunkOfBlock b)) :: .started .decrypt :: s.log }

/-- The step of an accepted `START`, when the schedule holds nothing else. -/
theorem step_justStarted {s : State} {d : Dir} (idle : s.phase.busy = false) (key_loaded : s.keylen = 64)
    (schedule : s.sched = [.start d]) : step s = .next (justStarted d s) :=
  (step_start schedule).trans (congrArg _ (startOp_of_key d (s := { s with sched := [] }) idle key_loaded))

/-- `START 0` and `CE.IVGEN` are five steps. -/
theorem runSteps_ivEmitted {s : State} {P : List Byte} {iv : Block} (ready : EncryptReady s P iv) :
    ∃ t, runSteps 5 s = .next t ∧ sameButHidden t (ivEmitted s iv) := by
  obtain ⟨rq, drawn⟩ := ready.entropy
  obtain ⟨oq, sink⟩ := ready.sink
  have accepted : s.outQ = some .ok :: (List.replicate (payloadWrites P.length) (some .ok) ++ oq) := by
    rw [sink, Nat.add_comm]
    rfl
  have started := step_justStarted ready.not_busy ready.key_loaded ready.schedule
  have draws := step_draw (s := justStarted .encrypt s) (.inr ⟨rfl, rfl⟩) (.inr ⟨ready.not_waiting, rfl, rfl⟩) drawn
  obtain ⟨t, steps, same⟩ := runSteps_accepted_write
    (ceIvgen_closed iv
      { justStarted .encrypt s with rngQ := rq, pending := none, log := .draw (chunkOfBlock iv) :: .started .encrypt :: s.log })
    rfl rfl accepted
  refine ⟨t, ?_, ?_⟩
  · rw [runSteps_succ started, runSteps_succ draws, ← steps]
    exact runSteps_succ (step_advance (p := .drawn (chunkOfBlock iv)) rfl rfl)
  · rw [ivEmitted, drawn, accepted]
    exact same

/-- `START 1` and the IV step are three steps. -/
theorem runSteps_ivLoaded {s : State} {b : Block} {C : List Byte} (ready : DecryptReady s (b.toList ++ C)) :
    runSteps 3 s = .next (ivLoaded s b) := by
  obtain ⟨q, source⟩ := ready.source
  have read : s.inQ = some (.data (chunkOfBlock b)) :: (wbAnswers C ++ q) := by
    rw [source, wbAnswers_block]
    rfl
  have loads : seedChunk (chunkOfBlock b) = ceIvload b := by
    funext x
    rw [seedChunk, if_pos (len_chunkOfBlock b)]
    exact congrArg (ceIvload · x) (pad8_toList b)
  have started := step_justStarted ready.not_busy ready.key_loaded ready.schedule
  have reads := step_read (s := justStarted .decrypt s) (.inr ⟨rfl, rfl⟩) (.inr (.inl ⟨ready.not_waiting, rfl, rfl, rfl⟩)) read
  rw [runSteps_succ started, runSteps_succ reads, ivLoaded, read]
  refine runSteps_succ ((step_advance (p := .readDone .stepSeed (.data (chunkOfBlock b))) rfl rfl).trans ?_)
  exact congrArg Host.Outcome.next (congrFun loads _)

/-- An encrypt run, from the end of `CE.IVGEN` to `DONE`. -/
theorem encrypt_run {s : State} {P : List Byte} {iv : Block} (ready : EncryptReady s P iv) :
    ∃ t, runSteps (encryptSteps P.length) s = .next t ∧ t.phase = .done ∧
      Pumps (ivEmitted s iv) t (encPayload (keyMask s.key) (xorBlock iv (keyMask s.key)) P) (P.length / 8 + 1)
        (payloadWrites P.length) := by
  obtain ⟨u, first, same⟩ := runSteps_ivEmitted ready
  obtain ⟨oq, sink⟩ := ready.sink
  have loop : LoopReady (ivEmitted s iv) P :=
    ⟨rfl, rfl, rfl, ready.source, oq, by simp [ivEmitted, sink, Nat.add_comm 1, List.replicate_succ]⟩
  obtain ⟨t, more, done, pumps⟩ := runsOut P u (.of_sameButHidden same loop)
  have dir : u.dir = .encrypt := congrArg State.dir same
  have key : u.key = s.key := same.key
  have prev : u.prev = xorBlock iv (keyMask s.key) := congrArg State.prev same
  rw [dir, key, prev] at pumps
  exact ⟨t, (runSteps_add _ first).trans more, done, pumps.from_sameButHidden same⟩

/-- A decrypt run, from the end of the IV step to `DONE`. -/
theorem decrypt_run {s : State} {b : Block} {C : List Byte} (ready : DecryptReady s (b.toList ++ C)) :
    ∃ t, runSteps (decryptSteps C.length) s = .next t ∧ t.phase = .done ∧
      Pumps (ivLoaded s b) t (decPayload (keyMask s.key) b C) (C.length / 8 + 1) (payloadWrites C.length) := by
  obtain ⟨q, source⟩ := ready.source
  obtain ⟨oq, sink⟩ := ready.sink
  have loop : LoopReady (ivLoaded s b) C :=
    ⟨rfl, rfl, rfl, ⟨q, by simp [ivLoaded, source, wbAnswers_block]⟩, oq, by simpa [ivLoaded] using sink⟩
  obtain ⟨t, more, done, pumps⟩ := runsOut C _ loop
  exact ⟨t, (runSteps_add _ (runSteps_ivLoaded ready)).trans more, done, pumps⟩

/-! ### The round trip (R149) -/

/-- `P` with its tail exclusive or'ed with the mask. -/
def maskTail (m : Block) (P : List Byte) : List Byte :=
  P.take (8 * (P.length / 8)) ++ List.zipWith (· ^^^ ·) (P.drop (8 * (P.length / 8))) m.toList

theorem maskTail_tail (m : Block) {P : List Byte} (short : P.length < 8) : maskTail m P = List.zipWith (· ^^^ ·) P m.toList := by
  simp [maskTail, Nat.div_eq_of_lt short]

theorem maskTail_block (m b : Block) (rest : List Byte) : maskTail m (b.toList ++ rest) = b.toList ++ maskTail m rest := by
  have whole : 8 * ((b.toList ++ rest).length / 8) = b.toList.length + 8 * (rest.length / 8) := by simp; omega
  simp only [maskTail, whole, List.take_length_add_append, List.drop_length_add_append, List.append_assoc]

theorem maskTail_length (m : Block) (P : List Byte) : (maskTail m P).length = P.length := by
  simp [maskTail]; omega

section cancel
variable (m chain : Block)

theorem encPayload_block (b : Block) (rest : List Byte) :
    encPayload m chain (b.toList ++ rest) = (emitted .encrypt m chain b).toList ++ encPayload m (emitted .encrypt m chain b) rest :=
  payload_block .encrypt m chain b rest

theorem decPayload_block (b : Block) (rest : List Byte) :
    decPayload m chain (b.toList ++ rest) = (emitted .decrypt m chain b).toList ++ decPayload m b rest :=
  payload_block .decrypt m chain b rest

theorem encPayload_length (P : List Byte) : (encPayload m chain P).length = P.length := payload_length .encrypt m chain P

/-- A full chunk comes back as it was: both directions mix in the mask and the same chain. -/
theorem emitted_decrypt_encrypt (b : Block) : emitted .decrypt m chain (emitted .encrypt m chain b) = b := by simp [emitted]

/-- Of a tail the chain cancels, and the mask stays: the decrypt direction does not mix it in (R145). -/
theorem decPayload_encPayload_tail {P : List Byte} (short : P.length < 8) :
    decPayload m chain (encPayload m chain P) = maskTail m P := by
  have short' : (encPayload m chain P).length < 8 := by rwa [encPayload_length]
  have chain_last : xorBlock (xorBlock (pad8 P) chain) m = xorBlock (xorBlock (pad8 P) m) chain := by
    rw [xorBlock_assoc, xorBlock_comm chain, ← xorBlock_assoc]
  rw [decPayload_tail m chain short', encPayload_length, encPayload_tail m chain short, chain_last, maskTail_tail m short]
  refine List.ext_getElem (by simp [firstBytes]) fun j hj _ => ?_
  have hP : j < P.length := by simp [firstBytes] at hj; omega
  have h8 : j < 8 := by omega
  simp [firstBytes, hP, h8]

/-- Decrypting what encrypting gives, from the same chain. -/
theorem decPayload_encPayload (P : List Byte) : decPayload m chain (encPayload m chain P) = maskTail m P := by
  induction P using chunks_induction generalizing chain with
  | tail P short => exact decPayload_encPayload_tail m chain short
  | block b rest ih => rw [encPayload_block, decPayload_block, emitted_decrypt_encrypt, ih, maskTail_block]

end cancel

section maskTail
variable (m : Block) (P : List Byte)

/-- Up to the last full chunk nothing is masked. -/
theorem maskTail_get_of_lt {j : Nat} (hj : j < 8 * (P.length / 8)) : (maskTail m P)[j]? = P[j]? := by
  have in_chunks : j < (P.take (8 * (P.length / 8))).length := by simp; omega
  rw [maskTail, List.getElem?_append_left in_chunks, List.getElem?_take_of_lt hj]

/-- A byte of the tail is exclusive or'ed with the byte of the mask at its position. -/
theorem maskTail_get_tail {i : Nat} (h8 : i < 8) (hP : 8 * (P.length / 8) + i < P.length)
    (hD : 8 * (P.length / 8) + i < (maskTail m P).length) :
    (maskTail m P)[8 * (P.length / 8) + i] = P[8 * (P.length / 8) + i] ^^^ m[i] := by
  have chunks : (P.take (8 * (P.length / 8))).length = 8 * (P.length / 8) := by simp; omega
  simp [maskTail, List.getElem_append_right, chunks]

/-- Masking the tail changes nothing exactly when the mask is zero in its positions. -/
theorem maskTail_eq_self_iff : maskTail m P = P ↔ P.length % 8 = 0 ∨ ∀ (i : Nat) (h8 : i < 8), i < P.length % 8 → m[i] = 0 := by
  constructor
  · refine fun same => .inr fun i h8 hi => ?_
    have hP : 8 * (P.length / 8) + i < P.length := by omega
    have byte := maskTail_get_tail m P h8 hP (by rwa [maskTail_length])
    simp only [same] at byte
    calc m[i] = P[8 * (P.length / 8) + i] ^^^ (P[8 * (P.length / 8) + i] ^^^ m[i]) := by
          rw [← BitVec.xor_assoc, BitVec.xor_self, BitVec.zero_xor]
      _ = 0 := by rw [← byte, BitVec.xor_self]; rfl
  · intro zero
    have zero_at (i : Nat) (h8 : i < 8) (hi : i < P.length % 8) : m[i] = 0 := by
      obtain none | zero := zero
      · omega
      · exact zero i h8 hi
    refine List.ext_getElem (maskTail_length m P) fun j hD hP => ?_
    by_cases in_chunks : j < 8 * (P.length / 8)
    · exact Option.some.inj (by simpa only [List.getElem?_eq_getElem, hD, hP] using maskTail_get_of_lt m P in_chunks)
    · obtain ⟨i, rfl⟩ := Nat.exists_eq_add_of_le (Nat.le_of_not_lt in_chunks)
      have h8 : i < 8 := by omega
      rw [maskTail_get_tail m P h8 hP hD, zero_at i h8 (by omega)]
      exact BitVec.xor_zero

end maskTail

/-- Settles O55: the encrypt run writes the IV block and the payload from it; the decrypt run loads the block as its chain, so it undoes the
payload but for the mask in the tail. -/
theorem streamRoundTripWithItsCondition : Obligations.StreamRoundTripWithItsCondition := by
  intro s P iv ready
  obtain ⟨t, steps, done, pumps⟩ := encrypt_run ready
  refine ⟨t, steps, done, fun s' ready' same_key => ?_⟩
  have written : runOut t.log =
      (xorBlock iv (keyMask s.key)).toList ++ encPayload (keyMask s.key) (xorBlock iv (keyMask s.key)) P := pumps.out
  rw [written] at ready'
  obtain ⟨t', steps', done', pumps'⟩ := decrypt_run ready'
  have back : runOut t'.log = maskTail (keyMask s.key) P := by
    have out := pumps'.out
    rw [same_key, decPayload_encPayload] at out
    exact out
  rw [encPayload_length] at steps'
  refine ⟨t', steps', done', ?_⟩
  simp only [back]
  exact ⟨maskTail_length _ P, fun j hj => maskTail_get_of_lt _ P hj, fun i _ h8 hP hD => maskTail_get_tail _ P h8 hP hD,
    maskTail_eq_self_iff _ P⟩

end Sys2Proof.Machine

/-! # The stream framer family (spec/43_stream_framer.md): the moves of `PHASE`, the sequencer, `SF.STEP`, host actions, whole runs -/

namespace Sys2Proof.Machine

/-! ### The moves of `PHASE` (R169) -/

/-- The rows of R169 that the core's own move from `s` to `t` can take. -/
inductive CorePhaseMove (s t : State) : Prop
  | stays (phase : t.phase = s.phase)
  | seeded (seed : s.phase = .seed) (phase : t.phase = .stream)
  | short_draw (seed : s.phase = .seed) (dir : s.dir = .encrypt) (phase : t.phase = .fail) (cause : t.cause = .entropySourceError)
  | io_error (busy : s.phase.busy = true) (phase : t.phase = .fail) (cause : t.cause = .ioError)
  | ends (stream : s.phase = .stream) (phase : t.phase = .done)

/-- The table of R169 has the rows of the core's move, whatever the schedule is. -/
theorem CorePhaseMove.phaseMove {s t : State} {q : List Slot} (m : CorePhaseMove { s with sched := q } t) : phaseMove s t := by
  unfold Machine.phaseMove
  cases m with
  | stays phase => exact .inl phase
  | seeded seed phase => exact .inr (.inr (.inr (.inr (.inl ⟨seed, phase⟩))))
  | short_draw seed dir phase cause => exact .inr (.inr (.inr (.inr (.inr (.inl ⟨seed, dir, phase, cause⟩)))))
  | io_error busy phase cause => exact .inr (.inr (.inr (.inr (.inr (.inr (.inl ⟨busy, phase, cause⟩))))))
  | ends stream phase => exact .inr (.inr (.inr (.inr (.inr (.inr (.inr ⟨stream, phase⟩))))))

section askPhase
variable (s : State)

theorem askDraw_phase : (askDraw s).phase = s.phase := by obtain ⟨_, _, -, e⟩ | ⟨-, e⟩ := askDraw_cases s <;> rw [e]
theorem askRead_phase (k : Reader) : (askRead k s).phase = s.phase := by obtain ⟨_, _, -, e⟩ | ⟨-, e⟩ := askRead_cases k s <;> rw [e]
theorem askWrite_phase (v : List Byte) (k : After) : (askWrite v k s).phase = s.phase := by
  obtain ⟨_, _, -, e⟩ | ⟨-, e⟩ := askWrite_cases v k s <;> rw [e]

end askPhase

/-- A computation of the loop either leaves its write due, and `PHASE` as it was, or is `SF.END`. -/
theorem streamChunk_phase (c : Chunk) (s : State) : (streamChunk c s).phase = s.phase ∨ (streamChunk c s).phase = .done := by
  unfold streamChunk
  split
  · split
    · simp [ceEncFull]
    · simp [ceDecFull]
  · split
    · split
      · simp [ceEncTail]
      · exact .inl rfl
    · exact .inr rfl

section corePhase
variable {s : State} (inv : RunInv s)
include inv

theorem ceIvgen_phaseMove {c : Chunk} (hp : s.pending = some (.drawn c)) : CorePhaseMove s (ceIvgen c { s with pending := none }) := by
  have fits := inv.pending_fits
  rw [pendingFits, hp] at fits
  obtain ⟨seed, encrypts, -⟩ := fits
  unfold ceIvgen
  split
  · exact .stays (by simp)
  · exact .short_draw seed encrypts rfl rfl

theorem afterRead_phaseMove {k : Reader} {a : InAnswer} (hp : s.pending = some (.readDone k a)) : CorePhaseMove s (afterRead k a s) := by
  have busy := inv.busy_of_pending hp
  have fits := inv.pending_fits
  rw [pendingFits, hp] at fits
  obtain ⟨fits, -⟩ := fits
  cases a with
  | err => exact .io_error busy rfl rfl
  | data c =>
    cases k with
    | bare => exact fits.elim
    | stepSeed =>
      obtain ⟨seed, -⟩ := fits
      rw [afterRead_data, useChunk, seedChunk]
      split
      · exact .seeded seed rfl
      · exact .io_error busy rfl rfl
    | stepStream =>
      obtain same | done := streamChunk_phase c { s with pending := none }
      · exact .stays same
      · exact .ends fits done

theorem afterWrite_phaseMove {v : List Byte} {k : After} {a : OutAnswer} (hp : s.pending = some (.written v k a)) :
    CorePhaseMove s (afterWrite v k a s) := by
  have fits := inv.pending_fits
  rw [pendingFits, hp] at fits
  obtain ⟨fits, -⟩ := fits
  cases a with
  | short | err => exact .io_error (inv.busy_of_pending hp) rfl rfl
  | ok =>
    cases k with
    | bare => exact fits.elim
    | ivgen =>
      obtain ⟨seed, -⟩ := fits
      exact .seeded seed rfl
    | encFull | decFull => exact .stays rfl
    | encTail | decTail =>
      obtain ⟨stream, -⟩ := fits
      exact .ends stream rfl

theorem advance_phaseMove {p : Pending} (hp : s.pending = some p) : CorePhaseMove s (advance p s) := by
  cases p with
  | draw => exact .stays (askDraw_phase s)
  | drawn c => exact ceIvgen_phaseMove inv hp
  | read k => exact .stays (askRead_phase s k)
  | readDone k a => exact afterRead_phaseMove inv hp
  | offer v k | write v k => exact .stays (askWrite_phase s v k)
  | written v k a => exact afterWrite_phaseMove inv hp

theorem CoreMove.phaseMove {t : State} (m : CoreMove s t) : CorePhaseMove s t := by
  cases m with
  | stay _ _ eq => exact .stays (congrArg State.phase eq)
  | advance p hp eq => exact eq ▸ advance_phaseMove inv hp
  | draw _ _ _ eq => exact .stays (eq ▸ askDraw_phase s)
  | seed _ _ _ eq | stream _ _ eq => exact .stays (eq ▸ askRead_phase s _)

end corePhase

theorem startOp_phaseMove {s : State} {d : Dir} {q : List Slot} (head : s.sched = .start d :: q) :
    phaseMove s (startOp d { s with sched := q }) := by
  have starts : ∃ d q, s.sched = .start d :: q := ⟨d, q, head⟩
  cases busy : s.phase.busy with
  | true =>
    rw [startOp_of_busy d (s := { s with sched := q }) busy]
    exact .inl rfl
  | false =>
    by_cases checked : s.keylen = 64
    · rw [startOp_of_key d (s := { s with sched := q }) busy checked]
      exact .inr (.inr (.inl ⟨starts, busy, checked, rfl⟩))
    · rw [startOp_of_bad_key d (s := { s with sched := q }) busy checked]
      exact .inr (.inr (.inr (.inl ⟨starts, busy, checked, rfl, rfl⟩)))

/-- The invariant on the core's turn. -/
theorem RunInv.of_coreTurn {s : State} (inv : RunInv s) {q : List Slot} (turn : coreTurn s q) : RunInv { s with sched := q } := by
  obtain head | ⟨-, rfl⟩ := turn
  · exact inv.next_slot head
  · exact inv.with_sched nofun

/-- Settles O47: `START` and reset have rows of their own, the other host actions leave `PHASE`, and what the core's move can do to `PHASE`
is decided by the operation in progress, which `RunInv` ties to `PHASE` and `DIR`. -/
theorem phaseMovesAlongTheTable : Obligations.PhaseMovesAlongTheTable := by
  intro s t inv hstep
  cases move_of_step (headNotSelect_of_noSelect inv.no_select) hstep with
  | load key q head eq => exact .inl (by rw [eq]; split <;> rfl)
  | start d q head eq => exact eq ▸ startOp_phaseMove head
  | sr q head eq => exact .inl (eq ▸ rfl)
  | reset q head eq => exact .inr (.inl ⟨⟨q, head⟩, eq ▸ rfl⟩)
  | core q turn move => exact (move.phaseMove (inv.of_coreTurn turn)).phaseMove

/-! ### The sequencer (R160, R196) -/

/-- `σ n` is a schedule whose first `n` turns are the core's, and `σ 0` what is left of it after them. -/
def CoreTurns (σ : Nat → List Slot) : Prop := ∀ (s : State) (n : Nat), coreTurn { s with sched := σ (n + 1) } (σ n)

theorem coreTurns_replicate (q : List Slot) : CoreTurns fun n => List.replicate n .core ++ q := fun _ _ => .inl rfl

theorem coreTurns_ended : CoreTurns fun _ => [] := fun _ _ => .inr ⟨rfl, rfl⟩

/-- A turn of the core that is a move of an operation. -/
theorem CoreTurns.step_advance {σ : Nat → List Slot} (turns : CoreTurns σ) {s : State} {p : Pending} (n : Nat)
    (move : ∀ q, coreMove { s with sched := q } = advance p { s with sched := q }) :
    step { s with sched := σ (n + 1) } = .next { advance p s with sched := σ n } :=
  step_coreTurn (turns s n) ((move (σ n)).trans (advance_sched p s (σ n)))

/-- The core's moves, with nothing between them, carry an operation on as `carryOn` does. -/
theorem CoreTurns.runSteps_carryOn {σ : Nat → List Slot} (turns : CoreTurns σ) (n : Nat) (s : State) :
    ∃ m, m ≤ n ∧ runSteps m { s with sched := σ m } = .next (carryOn n { s with sched := σ 0 }) := by
  induction n generalizing s with
  | zero => exact ⟨0, Nat.le_refl 0, rfl⟩
  | succ n ih =>
    obtain hp | ⟨p, hp⟩ := s.pending.eq_none_or_eq_some
    · exact ⟨0, Nat.zero_le _, congrArg Host.Outcome.next (carryOn_ended (n + 1) { s with sched := σ 0 } hp).symm⟩
    · cases waits : p.waiting with
      | true =>
        exact ⟨0, Nat.zero_le _, congrArg Host.Outcome.next (carryOn_waiting (n + 1) { s with sched := σ 0 } p hp waits).symm⟩
      | false =>
        obtain ⟨m, hm, steps⟩ := ih (advance p s)
        refine ⟨m + 1, Nat.succ_le_succ hm, ?_⟩
        rw [runSteps_succ (turns.step_advance m fun q => coreMove_of_pending (s := { s with sched := q }) hp), steps,
          carryOn_move n { s with sched := σ 0 } p hp waits, advance_sched p s (σ 0)]

/-- The row of `SF.STEP` that `SEL[4]` selects in a busy core. -/
def selectedRow (s : State) (i : Instr) : Prop := (s.phase = .seed ∧ i = .sfStepSeed) ∨ (s.phase = .stream ∧ i = .sfStepStream)

/-- Both rows of `SF.STEP` begin with a transaction, which is the core's move when it is between operations. -/
theorem first_move_of_selectedRow {s : State} {i : Instr} (row : selectedRow s i) (free : s.pending = none) :
    ∃ p, ∀ q, coreMove { s with sched := q } = advance p { s with sched := q } ∧
      exec i { s with sched := q } = .next (complete (advance p { s with sched := q })) := by
  obtain ⟨seed, rfl⟩ | ⟨stream, rfl⟩ := row
  · cases dir : s.dir with
    | encrypt => exact ⟨.draw, fun q => by simp [coreMove, free, seed, exec, execSfStepSeed, seedFirst, advance]⟩
    | decrypt => exact ⟨.read .stepSeed, fun q => by simp [coreMove, free, seed, exec, execSfStepSeed, seedFirst, advance]⟩
  · exact ⟨.read .stepStream, fun q => by simp [coreMove, free, stream, exec, execSfStepStream, streamFirst, advance]⟩

/-- One to four turns of the core give the row of `SF.STEP` as a whole. -/
theorem CoreTurns.runSteps_selectedRow {σ : Nat → List Slot} (turns : CoreTurns σ) {s : State} {i : Instr} (row : selectedRow s i)
    (free : s.pending = none) : ∃ n, 1 ≤ n ∧ n ≤ 4 ∧ runSteps n { s with sched := σ n } = exec i { s with sched := σ 0 } := by
  obtain ⟨p, first⟩ := first_move_of_selectedRow row free
  obtain ⟨m, hm, steps⟩ := turns.runSteps_carryOn 3 (advance p s)
  refine ⟨m + 1, Nat.le_add_left 1 m, Nat.succ_le_succ hm, ?_⟩
  rw [runSteps_succ (turns.step_advance m fun q => (first q).1), steps, (first (σ 0)).2, advance_sched p s (σ 0), complete]

/-- Between operations a core that is not busy does nothing (R196). -/
theorem coreMove_of_idle {s : State} (free : s.pending = none) (idle : s.phase.busy = false) : coreMove s = s := by
  cases coreMove_cases s with
  | stay _ _ eq => exact eq
  | advance p hp => simp [free] at hp
  | draw seed | seed seed => simp [seed, Phase.busy] at idle
  | stream stream => simp [stream, Phase.busy] at idle

/-- Settles O6: `nextOp` runs the host's operations by name; the core's moves are the first move of `SF.STEP` and what `complete` adds. -/
theorem stepRunsHostActionsAndTheSequencer : Obligations.StepRunsHostActionsAndTheSequencer := by
  intro s q
  refine ⟨fun key head => ?_, fun d head => ?_, fun head => ?_, fun turn free idle => ?_, fun i row free => ⟨?_, ?_⟩⟩
  · rw [step_eq, nextOp, head]
  · rw [step_eq, nextOp, head]
  · rw [step_eq, nextOp, head]
  · exact step_coreTurn turn (coreMove_of_idle (s := { s with sched := q }) free idle)
  · exact (coreTurns_replicate q).runSteps_selectedRow row free
  · exact coreTurns_ended.runSteps_selectedRow row free

/-! ### One iteration of the loop (R164) -/

section answeredRead
variable {s : State} (k : Reader) {q : List (Option InAnswer)}

/-- A read that is answered `Err` aborts the operation. -/
theorem complete_askRead_err (answered : s.inQ = some .err :: q) :
    complete (askRead k s) = raise .io { s with inQ := q, log := .read .err :: s.log } := by
  rw [askRead_of_answer k answered, complete, carryOn_move 2 _ (.readDone k .err) rfl rfl]
  exact carryOn_ended 2 _ (raise_pending ..)

/-- A read that is not answered waits. -/
theorem complete_askRead_silent (silent : s.inQ.head? = none ∨ s.inQ.head? = some none) :
    complete (askRead k s) = { s with inQ := s.inQ.tail, pending := some (.read k) } := by
  rw [askRead_of_silence k silent]
  exact carryOn_waiting 3 _ (.read k) rfl rfl

end answeredRead

/-- `s` after a read that was answered with `c`, with the answers `q` left. -/
def afterChunk (s : State) (c : Chunk) (q : List (Option InAnswer)) : State :=
  { s with inQ := q, pending := none, log := .read (.data c) :: s.log }

/-- Once its read is answered, the loop performs the operation of the chunk. -/
theorem exec_sfStepStream_of_data {s : State} {c : Chunk} {q : List (Option InAnswer)} (read : s.inQ = some (.data c) :: q) :
    exec .sfStepStream s = exec (streamOp s.dir c.bytes) (afterChunk s c q) :=
  (congrArg Host.Outcome.next (complete_askRead .stepStream read)).trans (exec_streamOp c (s := afterChunk s c q) rfl).symm

theorem exec_sfStepStream_of_block {s : State} {b : Block} {q : List (Option InAnswer)}
    (read : s.inQ = some (.data (chunkOfBlock b)) :: q) :
    exec .sfStepStream s = exec (fullOp s.dir b) (afterChunk s (chunkOfBlock b) q) := by
  rw [exec_sfStepStream_of_data read, chunkOfBlock, streamOp_toList]

/-- The block whose first bytes are written for the tail `b` (R142, R145). -/
def tailBlock (d : Dir) (m chain : Block) (b : List Byte) : Block :=
  match d with
  | .encrypt => xorBlock (xorBlock (pad8 b) chain) m
  | .decrypt => xorBlock (pad8 b) chain

/-- A tail whose write is accepted, in either direction. -/
theorem exec_tailOp_accepted (d : Dir) {s : State} {b : List Byte} {oq : List (Option OutAnswer)} (tail : tailLength b = true)
    (accepted : s.outQ = some .ok :: oq) :
    ∃ t, exec (tailOp d b) s = .next t ∧
      sameButHidden t
        { s with
          blk := tailBlock d (keyMask s.key) s.prev b, count := addCount s.count b.length, phase := .done, outQ := oq, pending := none
          log := .write (firstBytes b.length (tailBlock d (keyMask s.key) s.prev b)) .ok :: s.log } := by
  obtain ⟨-, high⟩ := tailLength_iff.1 tail
  have length (x : Block) : (firstBytes b.length x).length = b.length := firstBytes_length b.length x (by omega)
  cases d with
  | encrypt =>
    have closed := ceEncTail_closed b s
    have writes : ComesToWrite (.ceEncTail b) s _ .encTail _ :=
      comesToWrite_of_computation (fun _ => if_pos tail) (ceEncTail_outQ_comm b s) closed.pending
    obtain ⟨t, next, ok, -⟩ := writes.outcomes closed accepted
    rw [length] at ok
    exact ⟨t, next, ok rfl⟩
  | decrypt =>
    obtain ⟨t, next, ok, -⟩ := (comesToWrite_ceDecTail tail s).outcomes (ceDecTail_closed b s) accepted
    rw [length] at ok
    exact ⟨t, next, ok rfl⟩

/-- Settles O40: once the read is answered the loop performs the operation of the chunk, whose own statement says what it does. -/
theorem sfStepStreamPerformsOneIteration : Obligations.SfStepStreamPerformsOneIteration := by
  intro s q oq accepted
  refine ⟨fun b read encrypts => ?_, fun b read decrypts => ?_, fun c low high read => ?_, fun c empty read => ?_, fun read => ?_⟩
  · have performs := exec_sfStepStream_of_block read
    rw [encrypts] at performs
    obtain ⟨t, next, ok, -⟩ := ceEncFullChainsAndEmits (afterChunk s (chunkOfBlock b) q) b .ok oq accepted
    exact ⟨t, performs.trans next, ok rfl⟩
  · have performs := exec_sfStepStream_of_block read
    rw [decrypts] at performs
    obtain ⟨t, next, ok, -⟩ := ceDecFullUnchainsAndEmits (afterChunk s (chunkOfBlock b) q) b .ok oq accepted
    exact ⟨t, performs.trans next, ok rfl⟩
  · have tail : tailLength c.bytes = true := tailLength_iff.2 ⟨low, high⟩
    rw [exec_sfStepStream_of_data read, streamOp_tail s.dir tail]
    obtain ⟨t, next, same⟩ := exec_tailOp_accepted s.dir (s := afterChunk s c q) tail accepted
    have blk : t.blk = tailBlock s.dir (keyMask s.key) s.prev c.bytes := congrArg State.blk same
    refine ⟨t, _, next, rfl, blk, ?_⟩
    rw [blk]
    exact same
  · have nothing : c.bytes = [] := List.length_eq_zero_iff.1 empty
    rw [exec_sfStepStream_of_data read, nothing, streamOp_nil]
    rfl
  · exact congrArg Host.Outcome.next (complete_askRead_err .stepStream read)

/-! ### Whole runs (R166, R167, R168) -/

/-- Settles O53: the run up to the loop has emitted the IV block, and the loop adds the payload to what it wrote and counted. -/
theorem encryptRunProducesTheStream : Obligations.EncryptRunProducesTheStream := by
  intro s P iv ready
  obtain ⟨t, steps, done, pumps⟩ := encrypt_run ready
  have out : runOut t.log = encStream s.key iv P := pumps.out
  have length : (encStream s.key iv P).length = P.length + 8 := by
    rw [encStream, List.length_append, encPayload_length, Vector.length_toList, Nat.add_comm]
  refine ⟨t, steps, done, pumps.cause, pumps.dir, pumps.key, ?_, out, out ▸ length, ?_, pumps.reads, ?_⟩
  · rw [pumps.count, encPayload_length, addCount]
    exact BitVec.zero_add _
  · rw [pumps.draws]
    simp [ivEmitted, eventCount_cons, Event.isDraw]
  · rw [pumps.writes]
    simp [ivEmitted, eventCount_cons, Event.isWrite, Nat.add_assoc]

theorem decPayload_length (m chain : Block) (P : List Byte) : (decPayload m chain P).length = P.length := payload_length .decrypt m chain P

/-- Settles O54: the first 8 bytes are loaded as the chain, and the loop writes and counts the output for the rest. -/
theorem decryptRunProducesThePlaintext : Obligations.DecryptRunProducesThePlaintext := by
  intro s C enough ready
  have first : (C.take 8).length = 8 := List.length_take_of_le enough
  have cut : (pad8 (C.take 8)).toList ++ C.drop 8 = C := by rw [toList_pad8 first, List.take_append_drop]
  rw [← cut] at ready
  obtain ⟨t, steps, done, pumps⟩ := decrypt_run ready
  rw [List.length_drop] at steps pumps
  have out : runOut t.log = decStream s.key C := pumps.out
  have length : (decStream s.key C).length = C.length - 8 := by rw [decStream, decPayload_length, List.length_drop]
  refine ⟨t, steps, done, pumps.cause, pumps.dir, pumps.key, ?_, out, out ▸ length, ?_, ?_, ?_⟩
  · rw [pumps.count, decPayload_length, List.length_drop, addCount]
    exact BitVec.zero_add _
  · rw [pumps.draws]
    simp [ivLoaded, eventCount_cons, Event.isDraw]
  · rw [pumps.reads]
    simp [ivLoaded, eventCount_cons, Event.isRead]
    omega
  · rw [pumps.writes]
    simp [ivLoaded, eventCount_cons, Event.isWrite]

theorem encPayload_nil (m chain : Block) : encPayload m chain [] = [] := List.length_eq_zero_iff.1 (encPayload_length ..)

theorem decPayload_nil (m chain : Block) : decPayload m chain [] = [] := List.length_eq_zero_iff.1 (decPayload_length ..)

/-- Settles O56: with no payload the IV block is all that is written; decrypting it loads the chain and finds no payload. -/
theorem emptyInputGivesTheIvBlockOnly : Obligations.EmptyInputGivesTheIvBlockOnly := by
  intro s iv ready
  obtain ⟨t, steps, done, pumps⟩ := encrypt_run ready
  rw [encPayload_nil] at pumps
  have written : runOut t.log = (xorBlock iv (keyMask s.key)).toList ++ [] := pumps.out
  refine ⟨t, steps, done, pumps.count, written.trans (List.append_nil _), fun s' ready' => ?_⟩
  rw [written] at ready'
  obtain ⟨t', steps', done', pumps'⟩ := decrypt_run ready'
  rw [decPayload_nil] at pumps'
  exact ⟨t', steps', done', pumps'.count, pumps'.out⟩

/-! ### `START` (R160) -/

/-- Settles O35: `START` on an idle core with a 64-byte key is the update of R160. -/
theorem startBeginsAnOperation : Obligations.StartBeginsAnOperation := fun d s idle checked => by
  rw [exec_start, startOp_of_key d idle checked]

/-- Settles O36: the key check comes after `DIR`, `COUNT` and `CAUSE` are written, and what fails it is the abort action. -/
theorem startRejectsABadKeyLength : Obligations.StartRejectsABadKeyLength := fun d s idle unchecked => by
  rw [exec_start, startOp_of_bad_key d idle unchecked]
  rfl

/-! ### `SF.READ` and `SF.WRITE` (R161, R162) -/

theorem exec_sfRead (s : State) : exec .sfRead s = .next (complete (askRead .bare s)) := rfl

/-- Settles O37: a read that is answered with a chunk returns it and ends there; `Err` and silence are as for every read. -/
theorem sfReadReturnsTheChunk : Obligations.SfReadReturnsTheChunk := by
  refine fun s q => ⟨fun c read => ?_, fun read => ?_, fun read => ?_, fun ended => ?_⟩
  · rw [exec_sfRead, complete_askRead .bare read]
    rfl
  · rw [exec_sfRead, complete_askRead_err .bare read]
    rfl
  · rw [exec_sfRead, complete_askRead_silent .bare (.inr (by rw [read]; rfl)), read]
    rfl
  · have nothing_left : s.inQ.tail = s.inQ := by rw [ended]; rfl
    rw [exec_sfRead, complete_askRead_silent .bare (.inl (by rw [ended]; rfl)), nothing_left]

/-- Settles O38: `SF.WRITE` is its write and nothing before it, so its answer or its silence is all that happens. -/
theorem sfWriteWritesAllOrFails : Obligations.SfWriteWritesAllOrFails := by
  intro s v q low high
  have writes := comesToWrite_sfWrite (writeLength_iff.2 ⟨low, high⟩) s
  refine ⟨fun accepted => writes.exec_of_answer accepted, fun a failed answered => ?_, fun silent => ?_, fun ended => ?_⟩
  · rw [writes.exec_of_answer answered, afterWrite_fail v .bare a _ failed]
    rfl
  · rw [writes.exec_of_silence (.inr (by rw [silent]; rfl)), silent]
    rfl
  · have nothing_left : s.outQ.tail = s.outQ := by rw [ended]; rfl
    rw [writes.exec_of_silence (.inl (by rw [ended]; rfl)), nothing_left]

/-! ### The IV step (R163) -/

/-- Only a read asks the input port, and no move but a read's own leaves a read waiting. -/
theorem advance_inQ {p : Pending} (not_read : ∀ k, p ≠ .read k) (s : State) :
    (advance p s).inQ = s.inQ ∧ ∀ k, (advance p s).pending ≠ some (.read k) := by
  have computation (answered : p.answered) : (advance p s).inQ = s.inQ ∧ ∀ k, (advance p s).pending ≠ some (.read k) := by
    obtain ⟨ports, ended | ⟨v, k, due, -⟩⟩ := advance_computes answered s
    · simp [ports.inQ, ended]
    · simp [ports.inQ, due]
  cases p with
  | read k => exact absurd rfl (not_read k)
  | draw => obtain ⟨c, q, -, e⟩ | ⟨-, e⟩ := askDraw_cases s <;> simp [advance, e]
  | offer v k | write v k => obtain ⟨a, q, -, e⟩ | ⟨-, e⟩ := askWrite_cases v k s <;> simp [advance, e]
  | drawn c => exact computation (.inl ⟨c, rfl⟩)
  | readDone k a => exact computation (.inr (.inl ⟨k, a, rfl⟩))
  | written v k a => exact computation (.inr (.inr ⟨v, k, a, rfl⟩))

/-- An operation that is past its reads consumes no input. -/
theorem carryOn_inQ (n : Nat) {s : State} (not_read : ∀ k, s.pending ≠ some (.read k)) : (carryOn n s).inQ = s.inQ := by
  induction n generalizing s with
  | zero => rfl
  | succ n ih =>
    cases hp : s.pending with
    | none => rw [carryOn_ended _ s hp]
    | some p =>
      cases waits : p.waiting with
      | true => rw [carryOn_waiting _ s p hp waits]
      | false =>
        obtain ⟨same, none_after⟩ := advance_inQ (p := p) (fun k e => not_read k (e ▸ hp)) s
        rw [carryOn_move n s p hp waits, ih none_after, same]

theorem exec_sfStepSeed_of_encrypt {s : State} (encrypts : s.dir = .encrypt) : exec .sfStepSeed s = .next (complete (advance .draw s)) := by
  simp [exec, execSfStepSeed, seedFirst, encrypts, advance]

theorem exec_sfStepSeed_of_decrypt {s : State} (decrypts : s.dir = .decrypt) :
    exec .sfStepSeed s = .next (complete (askRead .stepSeed s)) := by
  simp [exec, execSfStepSeed, seedFirst, decrypts]

/-- In the decrypt direction the IV step, once its read is answered, performs the operation of the chunk. -/
theorem exec_sfStepSeed_of_data {s : State} {c : Chunk} {q : List (Option InAnswer)} (decrypts : s.dir = .decrypt)
    (read : s.inQ = some (.data c) :: q) : exec .sfStepSeed s = exec (seedOp c.bytes) (afterChunk s c q) := by
  rw [exec_sfStepSeed_of_decrypt decrypts, complete_askRead .stepSeed read]
  exact (exec_seedOp c (s := afterChunk s c q) rfl).symm

/-- Settles O39: the encrypt row is `CE.IVGEN`, which never reads; the decrypt row is its read and then `CE.IVLOAD` or `SF.FAULT`. -/
theorem sfStepSeedPerformsTheIvStep : Obligations.SfStepSeedPerformsTheIvStep := by
  refine fun s => ⟨fun encrypts => ?_, fun decrypts q => ⟨fun b read => ?_, fun c short read => ?_, fun read => ?_⟩⟩
  · obtain ⟨same, none_after⟩ := advance_inQ (p := .draw) nofun s
    exact ⟨_, exec_sfStepSeed_of_encrypt encrypts, rfl, (carryOn_inQ 3 none_after).trans same⟩
  · rw [exec_sfStepSeed_of_data decrypts read, chunkOfBlock, seedOp_toList]
    rfl
  · have short' : shortLength c.bytes = true := shortLength_iff.2 (Nat.le_of_lt_succ short)
    rw [exec_sfStepSeed_of_data decrypts read, seedOp_short short']
    exact if_pos short'
  · rw [exec_sfStepSeed_of_decrypt decrypts, complete_askRead_err .stepSeed read]
    rfl

/-! ### `SF.END` and `SR` (R165, R171) -/

/-- Settles O41: `SF.END` is the update of the one field. -/
theorem sfEndEndsTheRunCleanly : Obligations.SfEndEndsTheRunCleanly := fun _ _ => rfl

theorem exec_sr (s : State) : exec .sr s = .next (readStatus s) := rfl

/-- The fields of a word laid out as `STATUS` is (30_encoding.md R86). -/
theorem extract_status_fields :
    ∀ (d : BitVec 1) (c : BitVec 2) (p : BitVec 3), (0#2 ++ d ++ c ++ p).extractLsb' 0 3 = p ∧ (0#2 ++ d ++ c ++ p).extractLsb' 3 2 = c ∧
      (0#2 ++ d ++ c ++ p).extractLsb' 5 1 = d ∧ (0#2 ++ d ++ c ++ p).extractLsb' 6 2 = 0 := by
  decide

/-- Where R171 gives the count a value, `SR` returns the register. -/
theorem countRead_of_specified {s : State} (specified : countUnspecified s.phase s.cause = false) : s.countRead = s.count := by
  simp [State.countRead, specified]

/-- Settles O42: the word is read field by field, and where R171 gives the count it is `COUNT`, which `RunInv` knows to be 0 in `IDLE` and
after `KeyLengthError`. -/
theorem srReturnsStatusAndCount : Obligations.SrReturnsStatusAndCount := by
  intro s
  obtain ⟨phase, cause, dir, zeros⟩ : s.status.extractLsb' 0 3 = s.phase.code ∧ s.status.extractLsb' 3 2 = s.cause.code ∧
      s.status.extractLsb' 5 1 = s.dir.code ∧ s.status.extractLsb' 6 2 = 0 := extract_status_fields s.dir.code s.cause.code s.phase.code
  refine ⟨s.status, s.countRead, _, exec_sr s, ?_⟩
  rw [phase, cause, dir]
  refine ⟨congrArg Phase.code, congrArg Phase.code, congrArg Phase.code, congrArg Phase.code, congrArg Phase.code,
    congrArg Cause.code, congrArg Cause.code, congrArg Cause.code, congrArg Cause.code, congrArg Dir.code, congrArg Dir.code, zeros,
    fun done => ?_, fun inv idle => ?_, fun inv fail bad_key => ?_⟩
  · exact countRead_of_specified (by rw [done]; rfl)
  · have count := inv.count_fits
    rw [countFits, idle] at count
    exact (countRead_of_specified (by rw [idle]; rfl)).trans count
  · have count := inv.count_fits
    rw [countFits, fail, bad_key] at count
    exact (countRead_of_specified (by rw [fail, bad_key]; rfl)).trans count.1

end Sys2Proof.Machine

/-! # The exceptions family (spec/60_exceptions.md): `SF.FAULT`, no step stops, no transaction of an idle core, a decrypt input that is too short -/

namespace Sys2Proof.Machine

/-! ### `SF.FAULT` (R180, R184, R187) -/

theorem exec_sfFault_raised (e : ErrorKind) (s : State) : exec (.sfFault (.raised e)) s = .next (raise e s) := rfl

/-- A first read of fewer than 8 bytes raises `IOError` (R184). -/
theorem exec_sfFault_shortFirstRead {b : List Byte} (short : b.length ≤ 7) (s : State) :
    exec (.sfFault (.shortFirstRead b)) s = .next (raise .io s) := if_pos (shortLength_iff.2 short)

/-- Settles O44: `SF.FAULT` is the abort action of its error kind, which for a short first read is `IOError`. -/
theorem sfFaultRecordsTheCauseAndStops : Obligations.SfFaultRecordsTheCauseAndStops := fun s =>
  ⟨exec_sfFault_raised .keyLength s, exec_sfFault_raised .entropySource s, exec_sfFault_raised .io s,
    fun _ short => exec_sfFault_shortFirstRead short s⟩

/-! ### Every step of a run answers a next state (R187, R196) -/

/-- Settles O9: the slots of the host, of reset and of the core each have their step. -/
theorem stepNeverStopsInARun : Obligations.StepNeverStopsInARun := by
  intro s no_select
  rcases head : s.sched with _ | ⟨slot, q⟩
  · exact ⟨_, step_coreTurn (.inr ⟨head, rfl⟩) rfl⟩
  · cases slot with
    | core => exact ⟨_, step_coreTurn (.inl head) rfl⟩
    | load key =>
      cases busy : s.phase.busy with
      | true => exact ⟨_, step_load_busy head busy⟩
      | false => exact ⟨_, step_load_idle head busy⟩
    | start d => exact ⟨_, step_start head⟩
    | sr => exact ⟨_, step_sr head⟩
    | reset => exact ⟨_, step_reset head⟩
    | select d => exact absurd head (no_select d q)

/-! ### An idle core and the ports (R187, R189, R196, R210) -/

section idlePorts
variable {s : State}

/-- The core's move does nothing between operations of a core that is not busy (R196). -/
theorem CoreMove.eq_of_idle {t : State} (m : CoreMove s t) (free : s.pending = none) (idle : s.phase.busy = false) : t = s := by
  cases m with
  | stay _ _ eq => exact eq
  | advance p next => simp [free] at next
  | draw phase | seed phase | stream phase => simp [phase, Phase.busy] at idle

/-- `START`, whether it begins an operation or aborts, adds its mark to the history and asks no port. -/
theorem startOp_portsKept (d : Dir) (idle : s.phase.busy = false) : PortsKept { s with log := .started d :: s.log } (startOp d s) := by
  by_cases checked : s.keylen = 64
  · rw [startOp_of_key d idle checked]
    exact ⟨rfl, rfl, rfl, rfl⟩
  · rw [startOp_of_bad_key d idle checked]
    exact ⟨rfl, rfl, rfl, rfl⟩

/-- A reset between operations adds its mark to the history and asks no port. -/
theorem resetCore_portsKept (free : s.pending = none) : PortsKept { s with log := .reset :: s.log } (resetCore s) :=
  ⟨rfl, rfl, rfl, logReset_of_no_write (by simp [free])⟩

end idlePorts

/-- Settles O46: by `RunInv` nothing is in progress, so the core's move does nothing; `KS.LOAD` and `SR` leave the ports and the history, and
`START` and reset add their mark. -/
theorem noTransactionWhileNotBusy : Obligations.NoTransactionWhileNotBusy := by
  intro s t inv idle hstep
  have free := inv.free_of_not_busy idle
  cases move_of_step (headNotSelect_of_noSelect inv.no_select) hstep with
  | load key q head eq =>
    rw [eq, if_neg (ne_true_of_eq_false idle)]
    exact ⟨rfl, rfl, rfl, .inl rfl⟩
  | start d q head eq =>
    obtain ⟨inQ, outQ, rngQ, log⟩ := startOp_portsKept (s := { s with sched := q }) d idle
    exact eq ▸ ⟨inQ, outQ, rngQ, .inr (.inl ⟨d, q, head, log⟩)⟩
  | sr q head eq => exact eq ▸ ⟨rfl, rfl, rfl, .inl rfl⟩
  | reset q head eq =>
    obtain ⟨inQ, outQ, rngQ, log⟩ := resetCore_portsKept (s := { s with sched := q }) free
    exact eq ▸ ⟨inQ, outQ, rngQ, .inr (.inr ⟨q, head, log⟩)⟩
  | core q turn move =>
    rw [move.eq_of_idle free idle]
    exact ⟨rfl, rfl, rfl, .inl rfl⟩

/-! ### A decrypt input shorter than one block (R184) -/

/-- A first chunk of fewer than 8 bytes seeds no chain. -/
theorem seedChunk_of_short {c : Chunk} (short : c.bytes.length < 8) (s : State) : seedChunk c s = raise .io s := if_neg (Nat.ne_of_lt short)

/-- `START 1`, the read of a first chunk of fewer than 8 bytes, and `SF.FAULT` are three steps. -/
theorem runSteps_short_first_read {s : State} {C : List Byte} (short : C.length < 8) (ready : DecryptReady s C) :
    ∃ c q, runSteps 3 s = .next (raise .io (afterChunk (justStarted .decrypt s) c q)) := by
  obtain ⟨q, source⟩ := ready.source
  obtain ⟨c, rfl, answers⟩ := wbAnswers_tail short
  have read : s.inQ = some (.data c) :: q := by
    rw [source, answers]
    rfl
  have started := step_justStarted ready.not_busy ready.key_loaded ready.schedule
  have reads := step_read (s := justStarted .decrypt s) (.inr ⟨rfl, rfl⟩) (.inr (.inl ⟨ready.not_waiting, rfl, rfl, rfl⟩)) read
  refine ⟨c, q, ?_⟩
  rw [runSteps_succ started, runSteps_succ reads]
  refine runSteps_succ ((step_advance (p := .readDone .stepSeed (.data c)) rfl rfl).trans ?_)
  exact congrArg Host.Outcome.next (seedChunk_of_short short _)

/-- Settles O57: since `START` the history has the read only, and the abort action touches no port. -/
theorem shortDecryptInputFails : Obligations.ShortDecryptInputFails := by
  intro s C short ready
  obtain ⟨c, q, steps⟩ := runSteps_short_first_read short ready
  refine ⟨_, steps, rfl, rfl, rfl, rfl, rfl, ?_⟩
  simp [afterChunk, justStarted, eventCount_cons, Event.isWrite]

end Sys2Proof.Machine
